-- ==== Sys2Proof/Word.lean ====
section
/-!
DEFINITION. The fixed widths of the block (rules R6, R7): every value is unsigned.
-/

namespace Sys2Proof

/-- A register location as the host port transfers it (rule R6: 32 bits). -/
abbrev Word := BitVec 32

/-- A raw byte of `BBUF`, or a symbol code of `TBUF` (rules R30, R31: 8 bits). -/
abbrev Byte := BitVec 8

/-- The live bits of a length register (rules R27, R28: 16 bits). -/
abbrev Len := BitVec 16

/-- A location address, format `LOC18` (rules R50, R95). -/
abbrev LocAddr := BitVec 18

/-- The live bits of `CAP`: a capacity in 40-bit quanta (rules R6, R29). -/
abbrev Quanta := BitVec 13

/-- A 5-bit group, the index of a data symbol (rules R6, R112). -/
abbrev Group := BitVec 5

/-- The hidden repacking accumulator `ACC` (rule R33: 12 bits). -/
abbrev Acc := BitVec 12

/-- The hidden repacking bit counter `CNT` (rule R33: 4 bits). -/
abbrev Cnt := BitVec 4

end Sys2Proof
end

