-- ==== Sys2Proof/Syntax.lean ====
section
/-!
DEFINITION. The commands (one constructor per row of spec/opcode_table.json) and the format of a command word.
-/

namespace Sys2Proof

/-- The complete command set (rule R86). Both commands take their operands implicitly (rule R85), so
neither constructor has an argument. A reserved word is not a command: the decoder refuses it by name. -/
inductive Instr where
  /-- `ENC`: bytes of `BBUF` to base32 text in `TBUF` (rule R110). -/
  | enc
  /-- `DEC`: base32 text of `TBUF` to bytes in `BBUF` (rule R130). -/
  | dec
  deriving DecidableEq, Repr

/-- The format `CMD32` (rule R81): `RSV` in bits 31:2, `OP` in bits 1:0. -/
structure Cmd32 where
  rsv : BitVec 30
  op  : BitVec 2
  deriving DecidableEq, Repr

end Sys2Proof
end

