-- ==== Sys2Proof/WellFormed.lean ====
section
/-!
DEFINITION. Which command words are legal, and which commands are well formed.
-/

namespace Sys2Proof

/-- A command word is legal if and only if `RSV` is zero and `OP` is 1 or 2 (rules R25, R81, R88). -/
def Cmd32.wf (c : Cmd32) : Bool :=
  c.rsv == 0#30 && (c.op == 1#2 || c.op == 2#2)

/-- Every command is well formed: a command has no operand field to check (rules R81, R85). The one
check of the command format is `Cmd32.wf`. -/
def Instr.wf : Instr → Bool
  | .enc => true
  | .dec => true

end Sys2Proof
end

