-- ==== Sys2Proof/Decode.lean ====
section
/-!
DEFINITION. The command decoder (rule R87), total on 32-bit words, and the encoder (rule R86).
-/

namespace Sys2Proof

/-- Why a word is a reserved encoding (rule R88). -/
inductive Reserved where
  /-- `RSV`, bits 31:2, is not zero. -/
  | rsvNotZero
  /-- `RSV` is zero and `OP` is 0 or 3. -/
  | opReserved
  deriving DecidableEq, Repr

/-- What the decoder answers: a command, or `Reserved` with the reason. -/
inductive Decoded where
  | command  (i : Instr)
  | reserved (why : Reserved)
  deriving DecidableEq, Repr

/-- The fields of a command word (rule R81). -/
def Cmd32.ofWord (w : Word) : Cmd32 :=
  { rsv := w.extractLsb' 2 30, op := w.extractLsb' 0 2 }

/-- The word of a pair of fields (rule R81). -/
def Cmd32.toWord (c : Cmd32) : Word :=
  c.rsv ++ c.op

/-- `decode_cmd` on the fields (rule R87). -/
def decodeFields (c : Cmd32) : Decoded :=
  if c.rsv = 0#30 then
    if c.op = 1#2 then .command .enc
    else if c.op = 2#2 then .command .dec
    else .reserved .opReserved
  else .reserved .rsvNotZero

/-- `decode_cmd`, total over the 2^32 words (rule R87). The engine applies it to `REG.CMD` in the
completion step, not at the host's write. -/
def decode (w : Word) : Decoded :=
  decodeFields (Cmd32.ofWord w)

/-- The fields of each command (rule R86 and the rows of the opcode table: `RSV = 0`, `OP` = 1 or 2). -/
def encodeFields : Instr → Cmd32
  | .enc => { rsv := 0#30, op := 1#2 }
  | .dec => { rsv := 0#30, op := 2#2 }

/-- The command word of each command (rule R86). -/
def encode (i : Instr) : Word :=
  (encodeFields i).toWord

/-- The 32-bit word whose low `nbits` bits are those of `w` and whose other bits are zero. -/
def tableWord (nbits w : Nat) : Word :=
  BitVec.ofNat 32 (w % 2 ^ nbits)

/-- The command the decoder reads from a word numbered as the opcode table numbers it. A command is one
32-bit location, transferred whole (rule R53), so it has no byte order. -/
def decodeTableWord (nbits w : Nat) : Option Instr :=
  match decode (tableWord nbits w) with
  | .command i  => some i
  | .reserved _ => none

end Sys2Proof
end

