-- ==== Sys2Proof/Config.lean ====
section
/-!
DEFINITION. What an implementation fixes (`QCAP`) and the free values (the buffers' contents after a reset).
-/

namespace Sys2Proof

/-- The spec's default for its one open parameter `QCAP` (rule R6, decision D2). DESIGN CHOICE (log 1):
`State.reset` has this capacity; the capacity is the field `cap` of State, and statements range over it. -/
def Config.qcapDefault : Quanta := 13#13

/-- The content of a buffer location that nothing has written since a reset (rules R35, R212: "a draw,
free and under no law"). The first argument says which reset, the second is the location address. It
has no body: no proof can know a value of it (log 4). -/
opaque Config.drawn : Nat → Nat → Byte

end Sys2Proof
end

