-- ==== Sys2Proof/Machine/State.lean ====
section
/-!
DEFINITION. The state of one B32C (rule R23) as plain data, its reset value (rule R35), and the reasons a step could stop.
-/

namespace Sys2Proof.Machine

/-- The causes of a command fault (rule R180), in the order of their codes. -/
inductive Cause where
  /-- The trailing padding count is not in the set 0, 1, 3, 4, 6 (rule R134). -/
  | padCount
  /-- A `=` stands before the trailing padding run (rule R135). -/
  | padPos
  /-- A symbol is outside the alphabet (rule R136). -/
  | symbol
  /-- The source length is above the source buffer's capacity (rule R165). -/
  | length
  /-- The command word is reserved (rule R88). -/
  | badCmd
  deriving DecidableEq, Repr

/-- The values `STATUS.ERR` can hold: no fault, or one of the five causes. Codes 6 and 7 are never
produced (rules R26, R89), so the type has exactly six values (93 U4, log 13). -/
inductive Err where
  | none
  | padCount
  | padPos
  | symbol
  | length
  | badCmd
  deriving DecidableEq, Repr

/-- `STATUS` (rule R26): its three live fields. -/
structure Status where
  busy : Bool
  done : Bool
  err  : Err
  deriving DecidableEq, Repr

/-- What a location address names (rules R24, R52). -/
inductive Location where
  | cmd
  | status
  | blen
  | tlen
  | cap
  | bbuf (i : Nat)
  | tbuf (i : Nat)
  | unmapped
  deriving DecidableEq, Repr

/-- One transaction of the host port (rule R51). -/
inductive Access where
  /-- `MemRead(addr, 1)`. -/
  | read  (addr : LocAddr)
  /-- `MemWrite(addr, 1, v)`. -/
  | write (addr : LocAddr) (v : Word)
  deriving DecidableEq, Repr

/-- Who moves (rule R10): the host with a transaction, the engine, or the environment with a reset. -/
inductive Move where
  | host (a : Access)
  | engine
  | reset
  deriving DecidableEq, Repr

/-- The written locations of a buffer: pairs of an index and its byte, indices strictly rising. An
index that is not listed has not been written since the last reset (log 5). -/
abbrev Memory := List Host.Cell

/-- There is no way for this machine to stop with a fault. A command that faults ends in a next state
(rule R183), a port access never errors (rule R51), and nothing else runs (log 11). Nobody raises a
value of this type. -/
inductive Fault where
  deriving DecidableEq, Repr

/-- Reasons a step could be refused. -/
inductive Refusal where
  /-- Raised only by an arm of `exec` whose command has no meaning yet. Safe. No arm raises it now. -/
  | notModelled (mnemonic : String)
  deriving DecidableEq, Repr

/-- The whole state of one B32C instance (rule R23), and three fields of the model's own. -/
structure State where
  /-- `REG.CMD`, the most recently accepted command word (rule R25). -/
  cmd      : Word
  /-- `REG.STATUS` (rule R26). -/
  status   : Status
  /-- `REG.BLEN`, bits 15:0 (rule R27). -/
  blen     : Len
  /-- `REG.TLEN`, bits 15:0 (rule R28). -/
  tlen     : Len
  /-- `REG.CAP`, bits 12:0: the constant `QCAP` (rule R29). -/
  cap      : Quanta
  /-- `BBUF` (rule R30). -/
  bbuf     : Memory
  /-- `TBUF` (rule R31). -/
  tbuf     : Memory
  /-- `ACC`, hidden (rule R33). -/
  acc      : Acc
  /-- `CNT`, hidden (rule R33). -/
  cnt      : Cnt
  /-- The model's own: which reset the unwritten buffer contents were drawn at (rule R212, log 4). -/
  draw     : Nat
  /-- The model's own: what the latest `MemRead` returned to the host (rule R56, log 8). -/
  reply    : Option Word
  /-- The model's own: who moves next, oldest first (rules R10, R62, R164, log 2). -/
  schedule : List Move
  deriving DecidableEq, Repr

/-- The state after reset of an instance of capacity `q` (rules R6, R35). -/
def State.resetWith (q : Quanta) : State where
  cmd      := 0#32
  status   := { busy := false, done := false, err := .none }
  blen     := 0#16
  tlen     := 0#16
  cap      := q
  bbuf     := []
  tbuf     := []
  acc      := 0#12
  cnt      := 0#4
  draw     := 0
  reply    := none
  schedule := []

/-- The state after reset (rule R35) at the spec's default capacity (rule R6, log 1). -/
def State.reset : State :=
  State.resetWith Config.qcapDefault

end Sys2Proof.Machine
end

