-- ==== Sys2Proof/Machine/Flags.lean ====
section
/-!
DEFINITION. The status word: error codes, the format `STAT32` and its reading, the source's error kind.
-/

namespace Sys2Proof.Machine

/-- The value of `STATUS.ERR` for each cause (rules R89, R180). -/
def Cause.err : Cause → Err
  | .padCount => .padCount
  | .padPos   => .padPos
  | .symbol   => .symbol
  | .length   => .length
  | .badCmd   => .badCmd

/-- The 3-bit code of each `ERR` value (rule R89). -/
def Err.code : Err → BitVec 3
  | .none     => 0#3
  | .padCount => 1#3
  | .padPos   => 2#3
  | .symbol   => 3#3
  | .length   => 4#3
  | .badCmd   => 5#3

/-- The `ERR` value of a code; 6 and 7 are refused (rule R89, 93 U4). -/
def Err.ofCode (c : BitVec 3) : Option Err :=
  if c = 0#3 then some .none
  else if c = 1#3 then some .padCount
  else if c = 2#3 then some .padPos
  else if c = 3#3 then some .symbol
  else if c = 4#3 then some .length
  else if c = 5#3 then some .badCmd
  else Option.none

/-- Whether a host presenting the block as the source's `Decode` reports `DecodeError` (rule R182). -/
def Err.isDecodeError : Err → Bool
  | .none     => false
  | .padCount => true
  | .padPos   => true
  | .symbol   => true
  | .length   => false
  | .badCmd   => false

/-- The word a read of `STATUS` returns, format `STAT32`: `ERR` in bits 4:2, `DONE` in bit 1, `BUSY` in
bit 0, the rest zero (rules R56, R89). -/
def Status.toWord (st : Status) : Word :=
  (st.err.code ++ BitVec.ofBool st.done ++ BitVec.ofBool st.busy).setWidth 32

/-- The fields of a status word; a word no `STATUS` reads as for its reserved bits or its code is
refused (rule R89, 93 U4). -/
def Status.ofWord (w : Word) : Option Status :=
  if w.extractLsb' 5 27 = 0#27 then
    (Err.ofCode (w.extractLsb' 2 3)).map fun e =>
      { busy := w.getLsbD 0, done := w.getLsbD 1, err := e }
  else Option.none

end Sys2Proof.Machine
end

