-- ==== Sys2Proof/Machine/Ops.lean ====
section
/-!
DEFINITION. The named operations over buffers and registers: reading and writing a buffer, accepting a
command, ending one, raising a fault, and the reset event.
-/

namespace Sys2Proof.Machine

/-! ## Buffers -/

/-- The byte written at an index, `none` where nothing has been written since the last reset. -/
def Memory.read : Memory → Nat → Option Byte
  | [], _ => none
  | (k, v) :: m, a => if k = a then some v else Memory.read m a

/-- Write one byte, keeping the indices strictly rising. -/
def Memory.write : Memory → Nat → Byte → Memory
  | [], a, v => [(a, v)]
  | (k, u) :: m, a, v =>
    if a < k then (a, v) :: (k, u) :: m
    else if a = k then (a, v) :: m
    else (k, u) :: Memory.write m a v

/-- Write the bytes of a list at consecutive indices. -/
def Memory.writeRange : Memory → Nat → List Byte → Memory
  | m, _, [] => m
  | m, a, v :: vs => Memory.writeRange (Memory.write m a v) (a + 1) vs

/-- The canonical form: indices strictly rising. What an unlisted index reads as is "nothing written"
(`none`), which no entry holds, so equal written contents are equal lists (log 5). -/
def Memory.wf : Memory → Bool
  | [] => true
  | (k, _) :: m => m.all (fun c => decide (k < c.1)) && Memory.wf m

/-- Every listed index exists in a buffer of `size` locations (rule R52). -/
def Memory.inside (size : Nat) (m : Memory) : Bool :=
  m.all fun c => decide (c.1 < size)

/-- `BCAP = 5*QCAP` (rules R6, R29). -/
def State.bcap (s : State) : Nat := 5 * s.cap.toNat

/-- `TCAP = 8*QCAP` (rules R6, R29). -/
def State.tcap (s : State) : Nat := 8 * s.cap.toNat

/-- The content of `BBUF[i]`: what was last written there, else the value drawn at the last reset for
location `0x10000 + i` (rules R30, R52, R212). -/
def State.bbufAt (s : State) (i : Nat) : Byte :=
  (s.bbuf.read i).getD (Config.drawn s.draw (0x10000 + i))

/-- The content of `TBUF[i]`: what was last written there, else the value drawn at the last reset for
location `0x20000 + i` (rules R31, R52, R212). -/
def State.tbufAt (s : State) (i : Nat) : Byte :=
  (s.tbuf.read i).getD (Config.drawn s.draw (0x20000 + i))

/-- `BBUF[i] <- v`. -/
def State.setBbuf (i : Nat) (v : Byte) (s : State) : State :=
  { s with bbuf := s.bbuf.write i v }

/-- `TBUF[i] <- v`. -/
def State.setTbuf (i : Nat) (v : Byte) (s : State) : State :=
  { s with tbuf := s.tbuf.write i v }

/-- `BLEN <- n`. -/
def State.setBlen (n : Len) (s : State) : State :=
  { s with blen := n }

/-- `TLEN <- n`. -/
def State.setTlen (n : Len) (s : State) : State :=
  { s with tlen := n }

/-- `TBUF[0..L) <- t` and `TLEN <- L` (rule R118). -/
def State.writeText (t : List Byte) (s : State) : State :=
  { s with tbuf := s.tbuf.writeRange 0 t, tlen := BitVec.ofNat 16 t.length }

/-- `BBUF[0..M) <- o` and `BLEN <- M` (rule R142). -/
def State.writeBytes (o : List Byte) (s : State) : State :=
  { s with bbuf := s.bbuf.writeRange 0 o, blen := BitVec.ofNat 16 o.length }

/-- Set the hidden registers `ACC` and `CNT` (rule R33). -/
def State.setRepack (acc : Acc) (cnt : Cnt) (s : State) : State :=
  { s with acc := acc, cnt := cnt }

/-! ## Accepting and ending a command -/

/-- `accept_command(v)` (rule R160): the word is latched, legal or reserved, and not decoded. -/
def State.acceptCommand (v : Word) (s : State) : State :=
  { s with
    cmd := v
    status := { busy := true, done := false, err := .none }
    acc := 0#12
    cnt := 0#4 }

/-- `STATUS <- {BUSY=0, DONE=1, ERR=e}`: how every completion ends (rules R110, R130, R163). -/
def State.finish (e : Err) (s : State) : State :=
  { s with status := { busy := false, done := true, err := e } }

/-- `raise <Cause>`, the fault entry (rule R183): only `STATUS` changes; there is no saved program
counter, no mode and no handler address. There is no return from it (rule R188): the block is idle, and
the next accepted command clears `DONE` and `ERR` (`State.acceptCommand`). -/
def State.raise (c : Cause) (s : State) : State :=
  s.finish c.err

/-! ## The reset event -/

/-- The reset event (rules R210, R211): registers, flags and hidden registers to the values of rule R35,
`CAP` stays, every buffer location drawn anew (rule R212, log 4). The host's reply and the schedule are
no state of the block and stay (log 8). -/
def State.resetEvent (s : State) : State :=
  { State.resetWith s.cap with
    draw := s.draw + 1
    reply := s.reply
    schedule := s.schedule }

end Sys2Proof.Machine
end

