-- ==== Sys2Proof/Machine/Operands.lean ====
section
/-!
DEFINITION. Operands: location addresses, the alphabet, bit strings, and the two implicit source operands.
-/

namespace Sys2Proof.Machine

/-! ## Location addresses -/

/-- `REGION`, bits 17:16 of a location address (rule R95). -/
def locRegion (a : LocAddr) : BitVec 2 := a.extractLsb' 16 2

/-- `INDEX`, bits 15:0 of a location address (rule R95). -/
def locIndex (a : LocAddr) : BitVec 16 := a.extractLsb' 0 16

/-- What register number names (rule R24). -/
def locateRegister (i : Nat) : Location :=
  match i with
  | 0 => .cmd
  | 1 => .status
  | 2 => .blen
  | 3 => .tlen
  | 4 => .cap
  | _ => .unmapped

/-- What a location address names in an instance of capacity `q` (rule R52). -/
def locate (q : Quanta) (a : LocAddr) : Location :=
  let i := (locIndex a).toNat
  if locRegion a = 0#2 then locateRegister i
  else if locRegion a = 1#2 then
    if i < 5 * q.toNat then .bbuf i else .unmapped
  else if locRegion a = 2#2 then
    if i < 8 * q.toNat then .tbuf i else .unmapped
  else .unmapped

/-! ## The alphabet -/

/-- `PAD`, the code of `=` (rule R82). -/
def padSymbol : Byte := 0x3D#8

/-- `ALPHA[v]` (rule R82, in its closed form). The codes are ASCII, supplied by the spec from general
knowledge (93 K1, log 12). -/
def alpha (v : Group) : Byte :=
  if v.toNat ≤ 25 then BitVec.ofNat 8 (0x41 + v.toNat)
  else BitVec.ofNat 8 (0x18 + v.toNat)

/-- The class of a symbol code (rule R83). -/
inductive SymClass where
  /-- A data symbol and its index. -/
  | data (v : Group)
  /-- The padding symbol. -/
  | pad
  /-- Outside the alphabet. -/
  | none
  deriving DecidableEq, Repr

/-- `INDEX(c)` (rule R83). -/
def symIndex (c : Byte) : SymClass :=
  if 0x41 ≤ c.toNat ∧ c.toNat ≤ 0x5A then .data (BitVec.ofNat 5 (c.toNat - 0x41))
  else if 0x32 ≤ c.toNat ∧ c.toNat ≤ 0x37 then .data (BitVec.ofNat 5 (c.toNat - 0x32 + 26))
  else if c = padSymbol then .pad
  else .none

/-! ## Bit strings -/

/-- The bits of a value, most significant first: `bits8` and `bits5` of rule R8. -/
def msbBits {w : Nat} (x : BitVec w) : List Bool :=
  (List.range w).map fun j => x.getLsbD (w - 1 - j)

/-- `val`, the number whose most significant bit is the first of the string (rule R8). -/
def bitsVal : List Bool → Nat
  | [] => 0
  | b :: bs => b.toNat * 2 ^ bs.length + bitsVal bs

/-- The slices `S[w*g .. w*g + w)` for `0 <= g < n` (rules R112, R139). -/
def slices (w n : Nat) (S : List Bool) : List (List Bool) :=
  (List.range n).map fun g => (S.drop (w * g)).take w

/-! ## The implicit source operands (rule R85) -/

/-- `BBUF[0..BLEN)`, the source of `ENC`. -/
def State.byteOperand (s : State) : List Byte :=
  (List.range s.blen.toNat).map s.bbufAt

/-- `TBUF[0..TLEN)`, the source of `DEC`. -/
def State.textOperand (s : State) : List Byte :=
  (List.range s.tlen.toNat).map s.tbufAt

end Sys2Proof.Machine
end

