-- ==== Sys2Proof/Machine/Repack.lean ====
section
/-!
DEFINITION. The reference repacking datapaths over the hidden registers `ACC` and `CNT` (rules R33, R119, R144).
-/

namespace Sys2Proof.Machine

/-- The two hidden registers of the repacking datapath (rule R33). -/
structure Repack where
  acc : Acc
  cnt : Cnt
  deriving DecidableEq, Repr

/-- `ACC <- 0; CNT <- 0`. -/
def repackStart : Repack := { acc := 0#12, cnt := 0#4 }

/-- Keep the `c` unread bits: `CNT <- c; ACC <- ACC & ((1 << CNT) - 1)` (rules R119, R144). -/
def Repack.keep (r : Repack) (c : Cnt) : Repack :=
  { acc := r.acc &&& ((1#12 <<< c) - 1#12), cnt := c }

/-! ## 8 to 5 (rule R119) -/

/-- `ACC <- ((ACC << 8) | b) & 0xFFF; CNT <- CNT + 8`. -/
def Repack.absorbByte (r : Repack) (b : Byte) : Repack :=
  { acc := (r.acc <<< 8) ||| b.setWidth 12, cnt := r.cnt + 8#4 }

/-- `while CNT >= 5`: emit the next group. `fuel` bounds the loop; `CNT` is at most 12, so two turns
always suffice. -/
def Repack.emitGroups : Nat → Repack → List Group × Repack
  | 0, r => ([], r)
  | fuel + 1, r =>
    if r.cnt < 5#4 then ([], r)
    else
      let rest := Repack.emitGroups fuel (r.keep (r.cnt - 5#4))
      ((r.acc >>> (r.cnt - 5#4)).setWidth 5 :: rest.1, rest.2)

/-- The loop over the bytes: the groups emitted, and the registers after the last byte. -/
def repackBytes : Repack → List Byte → List Group × Repack
  | r, [] => ([], r)
  | r, b :: bs =>
    let now := (r.absorbByte b).emitGroups 2
    let rest := repackBytes now.2 bs
    (now.1 ++ rest.1, rest.2)

/-- `if CNT > 0`: the last group, zero fill on the right. It writes neither `ACC` nor `CNT`. -/
def Repack.lastGroup (r : Repack) : List Group :=
  if r.cnt = 0#4 then [] else [(r.acc <<< (5#4 - r.cnt)).setWidth 5]

/-- The padding count by `n mod 5`, as the datapath has it: `(0, 6, 4, 3, 1)[n mod 5]`. -/
def padByResidue (n : Nat) : Nat :=
  match n % 5 with
  | 1 => 6
  | 2 => 4
  | 3 => 3
  | 4 => 1
  | _ => 0

/-- The text the reference datapath emits (rule R119). -/
def repackEncode (b : List Byte) : List Byte :=
  let r := repackBytes repackStart b
  (r.1 ++ r.2.lastGroup).map alpha ++ List.replicate (padByResidue b.length) padSymbol

/-! ## 5 to 8 (rule R144, pass 2) -/

/-- `ACC <- ((ACC << 5) | v) & 0xFFF; CNT <- CNT + 5`. -/
def Repack.absorbGroup (r : Repack) (v : Group) : Repack :=
  { acc := (r.acc <<< 5) ||| v.setWidth 12, cnt := r.cnt + 5#4 }

/-- `if CNT >= 8`: emit one byte. Its presence is decided by `CNT`, never by its value (rule R143). -/
def Repack.emitByte (r : Repack) : List Byte × Repack :=
  if r.cnt < 8#4 then ([], r)
  else ([(r.acc >>> (r.cnt - 8#4)).setWidth 8], r.keep (r.cnt - 8#4))

/-- The loop over the indices: the bytes emitted, and the registers at the end. The bits left in `ACC`
are dropped (rule R140). -/
def repackGroups : Repack → List Group → List Byte × Repack
  | r, [] => ([], r)
  | r, v :: vs =>
    let now := (r.absorbGroup v).emitByte
    let rest := repackGroups now.2 vs
    (now.1 ++ rest.1, rest.2)

end Sys2Proof.Machine
end

