-- ==== Sys2Proof/Machine/Dec.lean ====
section
/-!
DEFINITION. The function `Decode` (rules R131 to R141) and the meaning of `DEC` (rules R130, R142).
-/

namespace Sys2Proof.Machine

/-- What `Decode` returns: `ok(o[0..M))` or `fail(cause)` (rule R131). -/
inductive DecodeResult where
  | ok   (o : List Byte)
  | fail (c : Cause)
  deriving DecidableEq, Repr

/-- The length of the longest suffix consisting only of `PAD` (rule R132). -/
def trailingPads (t : List Byte) : Nat :=
  (t.reverse.takeWhile fun c => c == padSymbol).length

/-- The padding counts a text may have (rule R134). -/
def allowedPads : List Nat := [0, 1, 3, 4, 6]

/-- The indices of the symbols of a text, `none` if one is not a data symbol (rule R136). -/
def symIndices : List Byte → Option (List Group)
  | [] => some []
  | c :: cs =>
    match symIndex c with
    | .data v => (symIndices cs).map fun vs => v :: vs
    | .pad    => none
    | .none   => none

/-- The symbols that stand before the trailing padding run: `t[0..D)` with `D = m - P` (rule R131). -/
def dataSymbols (t : List Byte) : List Byte :=
  t.take (t.length - trailingPads t)

/-- The first two steps and the lookup of `Decode` (rules R132 to R136), in the source's order: the
indices of the data symbols, or the cause of the first check that fails. -/
def validateText (t : List Byte) : Except Cause (List Group) :=
  if trailingPads t ∉ allowedPads then .error .padCount
  else if padSymbol ∈ dataSymbols t then .error .padPos
  else
    match symIndices (dataSymbols t) with
    | none    => .error .symbol
    | some vs => .ok vs

/-- The decode bit string, five bits an index, most significant first (rule R138). -/
def groupBits (vs : List Group) : List Bool :=
  vs.flatMap msbBits

/-- Regrouping into bytes, left to right; the `5D mod 8` bits that do not complete a byte are dropped
(rules R139, R140, R141). -/
def groupBytes (vs : List Group) : List Byte :=
  (slices 8 (5 * vs.length / 8) (groupBits vs)).map fun x => BitVec.ofNat 8 (bitsVal x)

/-- `Decode(t)` (rule R131). -/
def b32Decode (t : List Byte) : DecodeResult :=
  match validateText t with
  | .error c => .fail c
  | .ok vs   => .ok (groupBytes vs)

/-- `Decode(t)` by the reference datapath: validation first, then the repacking (rule R144). -/
def repackDecode (t : List Byte) : DecodeResult :=
  match validateText t with
  | .error c => .fail c
  | .ok vs   => .ok (repackGroups repackStart vs).1

/-- `DEC` (rule R130): the capacity check first (rule R165), then the checks of `Decode`, and only when
all have passed the bytes and their length at once (rule R142). The hidden registers are left as the
reference datapath leaves them (rule R144, log 7). -/
def execDec (s : State) : Host.Outcome State Fault Refusal :=
  if s.tcap < s.tlen.toNat then
    .next (s.raise .length)
  else
    match validateText s.textOperand with
    | .error c => .next (s.raise c)
    | .ok vs =>
      let r := (repackGroups repackStart vs).2
      .next (((s.writeBytes (groupBytes vs)).setRepack r.acc r.cnt).finish .none)

end Sys2Proof.Machine
end

