-- ==== Sys2Proof/Machine/Enc.lean ====
section
/-!
DEFINITION. The function `Encode` (rules R111 to R117) and the meaning of `ENC` (rules R110, R118).
-/

namespace Sys2Proof.Machine

/-- The padding table (rule R117): the padding count by `8n mod 40`. Every other value of the argument
is impossible, `8n mod 40` being a multiple of 8. -/
def padTable (bitsMod40 : Nat) : Nat :=
  match bitsMod40 with
  | 8  => 6
  | 16 => 4
  | 24 => 3
  | 32 => 1
  | _  => 0

/-- The bit string of a byte sequence, eight bits a byte, most significant first (rule R111). -/
def byteBits (b : List Byte) : List Bool :=
  b.flatMap msbBits

/-- `G = ceil(8n/5)`, the number of data symbols for `n` bytes (rule R115). -/
def groupCount (n : Nat) : Nat := (8 * n + 4) / 5

/-- The 5-bit groups of a byte sequence: the bit string, right-padded with zero bits to a multiple of 5,
cut left to right (rules R112, R114). -/
def byteGroups (b : List Byte) : List Group :=
  let G := groupCount b.length
  let S' := byteBits b ++ List.replicate (5 * G - 8 * b.length) false
  (slices 5 G S').map fun x => BitVec.ofNat 5 (bitsVal x)

/-- `Encode(b)` (rule R112): the data symbols, then the padding. -/
def b32Encode (b : List Byte) : List Byte :=
  (byteGroups b).map alpha ++ List.replicate (padTable (8 * b.length % 40)) padSymbol

/-- `ENC` (rule R110): the capacity check first (rule R165), then the whole text and its length at once
(rule R118). The hidden registers are left as the reference datapath leaves them (rule R119, log 7). -/
def execEnc (s : State) : Host.Outcome State Fault Refusal :=
  if s.bcap < s.blen.toNat then
    .next (s.raise .length)
  else
    let b := s.byteOperand
    let r := (repackBytes repackStart b).2
    .next (((s.writeText (b32Encode b)).setRepack r.acc r.cnt).finish .none)

end Sys2Proof.Machine
end

