-- ==== Sys2Proof/Machine/Port.lean ====
section
/-!
DEFINITION. The host port: `MemRead` and `MemWrite` of one location (rules R51, R56, R57, R58).
-/

namespace Sys2Proof.Machine

/-- The value `MemRead(addr, 1)` returns (rule R56): narrow values zero-extended, unmapped locations 0. -/
def State.memRead (a : LocAddr) (s : State) : Word :=
  match locate s.cap a with
  | .cmd      => s.cmd
  | .status   => s.status.toWord
  | .blen     => s.blen.setWidth 32
  | .tlen     => s.tlen.setWidth 32
  | .cap      => s.cap.setWidth 32
  | .bbuf i   => (s.bbufAt i).setWidth 32
  | .tbuf i   => (s.tbufAt i).setWidth 32
  | .unmapped => 0#32

/-- A host read as a step (rules R55, R56): the block's state does not change; the host has its answer. -/
def State.hostRead (a : LocAddr) (s : State) : State :=
  { s with reply := some (s.memRead a) }

/-- `MemWrite(addr, 1, v)` while idle (rule R57). The bits a location does not store are ignored. -/
def State.idleWrite (a : LocAddr) (v : Word) (s : State) : State :=
  match locate s.cap a with
  | .cmd      => s.acceptCommand v
  | .status   => s
  | .blen     => s.setBlen (v.setWidth 16)
  | .tlen     => s.setTlen (v.setWidth 16)
  | .cap      => s
  | .bbuf i   => s.setBbuf i (v.setWidth 8)
  | .tbuf i   => s.setTbuf i (v.setWidth 8)
  | .unmapped => s

/-- `MemWrite(addr, 1, v)` (rules R57, R58): dropped while busy, whatever the address. -/
def State.memWrite (a : LocAddr) (v : Word) (s : State) : State :=
  if s.status.busy then s else s.idleWrite a v

/-- One transaction of the host port (rule R51): it always completes. -/
def State.access : Access → State → State
  | .read a, s    => s.hostRead a
  | .write a v, s => s.memWrite a v

end Sys2Proof.Machine
end

