-- ==== Sys2Proof/Machine/Engine.lean ====
section
/-!
DEFINITION. The engine's completion step (rule R163), and what each move of the schedule does.
-/

namespace Sys2Proof.Machine

/-- The completion step (rule R163): decode the latched word and perform the command, or raise `BadCmd`. -/
def State.complete (s : State) : Host.Outcome State Fault Refusal :=
  match decode s.cmd with
  | .command i  => exec i s
  | .reserved _ => .next (s.raise .badCmd)

/-- The engine's turn: its completion step is enabled if and only if `BUSY = 1` (rule R163). While idle
the engine has no step and its turn passes (rules R10, R161, log 3). -/
def State.engineTurn (s : State) : Host.Outcome State Fault Refusal :=
  if s.status.busy then s.complete else .next s

/-- One move (rules R10, R210). -/
def State.perform : Move → State → Host.Outcome State Fault Refusal
  | .host a, s => .next (s.access a)
  | .engine, s => s.engineTurn
  | .reset, s  => .next s.resetEvent

/-- The state in which the word is the latched command of a busy block and the engine's turn is next: as
the accepting `CMD` write leaves it (rule R160, log 10). -/
def State.latchWord (w : Word) (s : State) : State :=
  { s.acceptCommand w with schedule := .engine :: s.schedule }

end Sys2Proof.Machine
end

