-- ==== Sys2Proof/Machine/Step.lean ====
section
/-!
DEFINITION. One step of the machine: the next move of the schedule, and the engine's when it is used up.
-/

namespace Sys2Proof.Machine

/-- One step (rules R10, R62): the oldest move of the schedule. When the schedule is used up the engine
has the turn, so that a busy block completes (the weak fairness of rule R164, log 2) and an idle one
rests, waiting for the host (rule R161). -/
def step (s : State) : Host.Outcome State Fault Refusal :=
  match s.schedule with
  | [] => s.engineTurn
  | m :: rest => State.perform m { s with schedule := rest }

/-- The state whose next step completes the command word whose low `nbits` bits are those of `w`
(log 10). -/
def State.withFetchWord (s : State) (nbits w : Nat) : State :=
  s.latchWord (tableWord nbits w)

end Sys2Proof.Machine
end

