-- ==== Sys2Proof/Machine/HostNotation.lean ====
section
/-!
DEFINITION. The host-program lines of the spec as moves of the schedule (rules R93, R94). Nothing in the
machine depends on this file.
-/

namespace Sys2Proof.Machine

/-- The location names of rule R93. -/
def locCMD : LocAddr := 0x00000#18
def locSTATUS : LocAddr := 0x00001#18
def locBLEN : LocAddr := 0x00002#18
def locTLEN : LocAddr := 0x00003#18
def locCAP : LocAddr := 0x00004#18

/-- `BBUF[i]` = `0x10000 + i` (rule R93). -/
def locBBUF (i : Nat) : LocAddr := 0x10000#18 + BitVec.ofNat 18 i

/-- `TBUF[i]` = `0x20000 + i` (rule R93). -/
def locTBUF (i : Nat) : LocAddr := 0x20000#18 + BitVec.ofNat 18 i

/-- `WR <loc>, <value>` (rule R93). -/
def lineWR (a : LocAddr) (v : Word) : Move := .host (.write a v)

/-- `RD <loc>` (rule R93). -/
def lineRD (a : LocAddr) : Move := .host (.read a)

/-- The pseudo-instruction `ENC` (rule R94). -/
def lineENC : Move := lineWR locCMD 1#32

/-- The pseudo-instruction `DEC` (rule R94). -/
def lineDEC : Move := lineWR locCMD 2#32

/-- `POLL` (rule R94) in an execution in which `k` reads of `STATUS` return busy before the completion
step and one read after it does not (rule R164 leaves `k` open). -/
def linePOLL (k : Nat) : List Move :=
  List.replicate k (lineRD locSTATUS) ++ [.engine, lineRD locSTATUS]

/-- Writes of consecutive buffer locations from index `i` on. -/
def writesFrom (loc : Nat → LocAddr) : Nat → List Byte → List Move
  | _, [] => []
  | i, b :: bs => lineWR (loc i) (b.setWidth 32) :: writesFrom loc (i + 1) bs

/-- `LDB "<hex bytes>"` (rule R94). -/
def lineLDB (b : List Byte) : List Move :=
  writesFrom locBBUF 0 b ++ [lineWR locBLEN (BitVec.ofNat 32 b.length)]

/-- `LDT "<string>"` (rule R94). -/
def lineLDT (t : List Byte) : List Move :=
  writesFrom locTBUF 0 t ++ [lineWR locTLEN (BitVec.ofNat 32 t.length)]

end Sys2Proof.Machine
end

