-- ==== Sys2Proof/Machine/HostCall.lean ====
section
/-!
DEFINITION. The canonical host sequence for one call of the source's functions (rule R168), by a host that
chooses its transactions by what it reads. Nothing in the machine depends on this file.
-/

namespace Sys2Proof.Machine

/-- What a host presenting the block as the source's `Encode` or `Decode` reports (rules R168, R182). -/
inductive CallResult where
  /-- The text, or the bytes. -/
  | value (l : List Byte)
  /-- `DecodeError`, the source's error kind: `ERR` is 1, 2 or 3. -/
  | decodeError
  /-- The host's own capacity error: `ERR` is 4. -/
  | length
  /-- A host programming error: `ERR` is 5. -/
  | badCmd
  /-- The last word read shows no outcome: it is no status word, or says busy. -/
  | noOutcome
  deriving DecidableEq, Repr

/-- Go on from a next state and what comes with it; a fault or a refusal stays. -/
def andThen {α β : Type} (o : Host.Outcome α Fault Refusal) (f : α → Host.Outcome β Fault Refusal) :
    Host.Outcome β Fault Refusal :=
  match o with
  | .next a    => f a
  | .fault r   => .fault r
  | .refused r => .refused r

/-- One step, in which the given move is made; the moves already scheduled stay for later (log 9). -/
def State.doMove (m : Move) (s : State) : Host.Outcome State Fault Refusal :=
  step { s with schedule := m :: s.schedule }

/-- Moves made one after the other. -/
def State.doMoves : List Move → State → Host.Outcome State Fault Refusal
  | [], s      => .next s
  | m :: ms, s => andThen (s.doMove m) (State.doMoves ms)

/-- The word the host's latest read returned. Asked only after a read; before the first one it is 0. -/
def State.answer (s : State) : Word := s.reply.getD 0#32

/-- `RD STATUS` until bit 0, `BUSY`, is 0 (rules R94, R168), in an execution in which the engine's turn comes
after `k` reads, if the host has not stopped before (rule R164 leaves `k` open). -/
def State.poll : Nat → State → Host.Outcome State Fault Refusal
  | 0, s => andThen (s.doMove .engine) (State.doMove (lineRD locSTATUS))
  | k + 1, s =>
    andThen (s.doMove (lineRD locSTATUS)) fun t =>
      if t.answer.getLsbD 0 then State.poll k t else .next t

/-- Reads of `n` consecutive buffer locations from index `i` on: the low 8 bits of each answer. -/
def State.readFrom (loc : Nat → LocAddr) :
    Nat → Nat → State → Host.Outcome (List Byte × State) Fault Refusal
  | _, 0, s => .next ([], s)
  | i, n + 1, s =>
    andThen (s.doMove (lineRD (loc i))) fun t =>
      andThen (State.readFrom loc (i + 1) n t) fun r => .next (t.answer.setWidth 8 :: r.1, r.2)

/-- The result of a call after `ERR = 0`: read the length register, then the locations `[0..length)`. -/
def State.readValue (len : LocAddr) (loc : Nat → LocAddr) (s : State) :
    Host.Outcome (CallResult × State) Fault Refusal :=
  andThen (s.doMove (lineRD len)) fun t =>
    andThen (State.readFrom loc 0 t.answer.toNat t) fun r => .next (.value r.1, r.2)

/-- What the host does once the poll has ended, by the status word it read last (rules R168, R182). -/
def State.takeResult (len : LocAddr) (loc : Nat → LocAddr) (s : State) :
    Host.Outcome (CallResult × State) Fault Refusal :=
  match Status.ofWord s.answer with
  | none => .next (.noOutcome, s)
  | some st =>
    if st.busy then .next (.noOutcome, s)
    else
      match st.err with
      | .none     => s.readValue len loc
      | .padCount => .next (.decodeError, s)
      | .padPos   => .next (.decodeError, s)
      | .symbol   => .next (.decodeError, s)
      | .length   => .next (.length, s)
      | .badCmd   => .next (.badCmd, s)

/-- One call: the operand writes in the order given (rule R168: their order is free), the `CMD` write, the
poll, and the result. -/
def State.call (operandWrites : List Move) (cmd : Move) (k : Nat) (len : LocAddr) (loc : Nat → LocAddr)
    (s : State) : Host.Outcome (CallResult × State) Fault Refusal :=
  andThen (s.doMoves operandWrites) fun t =>
    andThen (t.doMove cmd) fun u =>
      andThen (u.poll k) (State.takeResult len loc)

/-- `Encode(bytes)` through the port (rule R168), the operand written by the given moves: `lineLDB bytes`, or
the same writes in another order. -/
def callEncode (operandWrites : List Move) (k : Nat) (s : State) :
    Host.Outcome (CallResult × State) Fault Refusal :=
  s.call operandWrites lineENC k locTLEN locTBUF

/-- `Decode(text)` through the port (rule R168), the operand written by the given moves: `lineLDT text`, or
the same writes in another order. -/
def callDecode (operandWrites : List Move) (k : Nat) (s : State) :
    Host.Outcome (CallResult × State) Fault Refusal :=
  s.call operandWrites lineDEC k locBLEN locBBUF

end Sys2Proof.Machine
end

