-- ==== Sys2Proof/Safety.lean ====
section
/-!
DEFINITION. What claims use: reachable states, the invariants of the block, and canonical text.
-/

namespace Sys2Proof.Machine

/-! ## Invariants -/

/-- The invariants of the flags (rule R32): `BUSY` and `DONE` never both, `ERR` only with `DONE`. -/
def Status.legal (st : Status) : Bool :=
  !(st.busy && st.done) && (st.err == .none || st.done)

/-- The hidden registers between two bytes or symbols (rules R119, R144): `CNT` is at most 7 and `ACC`
holds nothing above the `CNT` unread bits. -/
def State.repackLegal (s : State) : Bool :=
  decide (s.cnt.toNat ≤ 7) && decide (s.acc.toNat < 2 ^ s.cnt.toNat)

/-- What holds of every reachable state of the block. -/
structure State.Inv (s : State) : Prop where
  /-- The capacity is at least one quantum (rule R6; `QCAP <= 8191` is the field's width). -/
  capacity  : 1 ≤ s.cap.toNat
  /-- The flags are legal (rule R32). -/
  flags     : s.status.legal = true
  /-- Both buffers keep their canonical form, and list no location that does not exist (rule R52). -/
  bbufWf    : s.bbuf.wf = true
  tbufWf    : s.tbuf.wf = true
  bbufMap   : s.bbuf.inside s.bcap = true
  tbufMap   : s.tbuf.inside s.tcap = true
  /-- The hidden registers are legal, and clear while a command is in flight (rules R33, R160). -/
  repack    : s.repackLegal = true
  cleared   : s.status.busy = true → s.acc = 0#12 ∧ s.cnt = 0#4

/-- The faults each latched word can end in (rule R180): a reserved word always `BadCmd`, `ENC` only
`Length`, `DEC` any but `BadCmd`. -/
def outcomeAllowed : Decoded → Err → Bool
  | .reserved _,   e => e == .badCmd
  | .command .enc, e => e == .none || e == .length
  | .command .dec, e => e != .badCmd

/-- The recorded outcome belongs to the latched word: `CMD` holds the most recently accepted word (rule
R25) and `ERR` the code of the most recent completed command (rule R26); before the first command `CMD`
is as reset leaves it. -/
def State.OutcomeMatches (s : State) : Prop :=
  (s.status.done = true → outcomeAllowed (decode s.cmd) s.status.err = true) ∧
  (s.status.busy = false → s.status.done = false → s.cmd = 0#32)

/-- Reachable from the reset state of some capacity, with any schedule. -/
inductive Reachable : State → Prop where
  | start (q : Quanta) (draw : Nat) (moves : List Move) (hq : 1 ≤ q.toNat) :
      Reachable { State.resetWith q with draw := draw, schedule := moves }
  | next {s t : State} : Reachable s → step s = .next t → Reachable t

/-! ## The block's state, without the model's own fields -/

/-- The same block: every piece of state the spec names is equal (rule R23), unwritten contents
included. The reply and the schedule may differ. -/
def State.sameBlock (s t : State) : Prop :=
  t = { s with reply := t.reply, schedule := t.schedule }

/-! ## Canonical text -/

/-- `(D mod 8, P)` of a canonical text (rule R84). -/
def canonicalShape (d p : Nat) : Bool :=
  (d % 8, p) ∈ [(0, 0), (2, 6), (4, 4), (5, 3), (7, 1)]

/-- A canonical text (rules R84, R147 (b)): accepted, of a length that is a multiple of 8, with a
padding count that belongs to the number of data symbols, and with discarded bits all zero. -/
def isCanonical (t : List Byte) : Bool :=
  match validateText t with
  | .error _ => false
  | .ok vs =>
    t.length % 8 == 0 && canonicalShape vs.length (trailingPads t) &&
      ((groupBits vs).drop (8 * (5 * vs.length / 8))).all (fun b => !b)

end Sys2Proof.Machine
end

