-- ==== Sys2Proof/Certificates/Slice0/Obligations.lean ====
section
/-!
DEFINITION. The statements for the provers, one `def Obligations.<Name> : Prop` each.
-/

open Sys2Proof Sys2Proof.Machine

/-! ## Encodings (30) -/

/-- Decoding and encoding agree on every word and every well-formed command: a word decodes to a command
if and only if it is that command's word. Rests on rules R81, R86, R87. -/
def Obligations.DecodeEncodeAgree : Prop :=
  ∀ (i : Instr) (w : Word), i.wf = true → (decode w = .command i ↔ w = encode i)

/-- Rule R86: a word is a command exactly when it matches the command's row under its mask, and every
other word is reserved. -/
def Obligations.DecoderMatchesOpcodeTable : Prop :=
  ∀ w : Word,
    (decode w = .command .enc ↔ w &&& 0xFFFFFFFF#32 = 0x00000001#32) ∧
    (decode w = .command .dec ↔ w &&& 0xFFFFFFFF#32 = 0x00000002#32) ∧
    ((∃ why, decode w = .reserved why) ↔
      w &&& 0xFFFFFFFF#32 ≠ 0x00000001#32 ∧ w &&& 0xFFFFFFFF#32 ≠ 0x00000002#32)

/-- Words written out bit by bit from rules R86 and R88 decode to what the rules say they stand for. -/
def Obligations.WrittenOutWordsDecode : Prop :=
  decode 0b00000000000000000000000000000001#32 = .command .enc ∧
  decode 0b00000000000000000000000000000010#32 = .command .dec ∧
  decode 0b00000000000000000000000000000000#32 = .reserved .opReserved ∧
  decode 0b00000000000000000000000000000011#32 = .reserved .opReserved ∧
  decode 0b00000000000000000000000000000101#32 = .reserved .rsvNotZero ∧
  decode 0b00000000000000010000000000000001#32 = .reserved .rsvNotZero ∧
  decode 0b10000000000000000000000000000010#32 = .reserved .rsvNotZero ∧
  decode 0b11111111111111111111111111111111#32 = .reserved .rsvNotZero

/-- Rule R83: every 8-bit code falls in exactly one of three classes, with the index the rule gives, and
223 codes are outside the alphabet. -/
def Obligations.SymbolClasses : Prop :=
  (∀ c : Byte,
    (0x41 ≤ c.toNat ∧ c.toNat ≤ 0x5A →
      symIndex c = .data (BitVec.ofNat 5 (c.toNat - 0x41))) ∧
    (0x32 ≤ c.toNat ∧ c.toNat ≤ 0x37 →
      symIndex c = .data (BitVec.ofNat 5 (c.toNat - 0x32 + 26))) ∧
    (c = 0x3D#8 → symIndex c = .pad) ∧
    (¬(0x41 ≤ c.toNat ∧ c.toNat ≤ 0x5A) → ¬(0x32 ≤ c.toNat ∧ c.toNat ≤ 0x37) → c ≠ 0x3D#8 →
      symIndex c = .none)) ∧
  ((List.range 256).filter fun n => symIndex (BitVec.ofNat 8 n) == .none).length = 223

/-- The alphabet's 32 codes are those of the table of rule R82 (ASCII codes the spec supplies from general
knowledge, log 12), `INDEX` undoes `ALPHA`, and `PAD` is no data symbol. -/
def Obligations.AlphabetTable : Prop :=
  (List.range 32).map (fun v => alpha (BitVec.ofNat 5 v)) =
    [0x41#8, 0x42#8, 0x43#8, 0x44#8, 0x45#8, 0x46#8, 0x47#8, 0x48#8,
     0x49#8, 0x4A#8, 0x4B#8, 0x4C#8, 0x4D#8, 0x4E#8, 0x4F#8, 0x50#8,
     0x51#8, 0x52#8, 0x53#8, 0x54#8, 0x55#8, 0x56#8, 0x57#8, 0x58#8,
     0x59#8, 0x5A#8, 0x32#8, 0x33#8, 0x34#8, 0x35#8, 0x36#8, 0x37#8] ∧
  (∀ (c : Byte) (v : Group), symIndex c = .data v ↔ c = alpha v) ∧
  (∀ v : Group, alpha v ≠ padSymbol)

/-- The words a legal `STATUS` reads as are the eight of rule R89, and reading the word back gives the
flags. A word with code 6 or 7 is refused (93 U4); that a word with a reserved bit set is refused too is the
model's choice (log 13). -/
def Obligations.StatusWords : Prop :=
  (∀ st : Status, st.legal = true →
    st.toWord ∈ [0x00#32, 0x01#32, 0x02#32, 0x06#32, 0x0A#32, 0x0E#32, 0x12#32, 0x16#32]) ∧
  (∀ (st : Status) (w : Word), Status.ofWord w = some st ↔ w = st.toWord)

/-! ## The function Encode (40) -/

/-- The number of data symbols, the padding by the table of rule R117, and the length: the first
`ceil(8n/5)` symbols are data symbols, the rest are `=`, and there are 6, 4, 3, 1 or 0 of them. -/
def Obligations.EncodeLengthAndPadding : Prop :=
  ∀ b : List Byte,
    let G := (8 * b.length + 4) / 5
    (8 * b.length % 40 = 8 → (b32Encode b).length = G + 6) ∧
    (8 * b.length % 40 = 16 → (b32Encode b).length = G + 4) ∧
    (8 * b.length % 40 = 24 → (b32Encode b).length = G + 3) ∧
    (8 * b.length % 40 = 32 → (b32Encode b).length = G + 1) ∧
    (8 * b.length % 40 = 0 → (b32Encode b).length = G) ∧
    (b32Encode b).length = 8 * ((b.length + 4) / 5) ∧
    (∀ i, i < G → ∃ v : Group, (b32Encode b)[i]? = some (alpha v)) ∧
    (∀ i, G ≤ i → i < (b32Encode b).length → (b32Encode b)[i]? = some padSymbol)

/-- The closed form of rule R112: the symbol of group `g` is cut out of the 16 bits of the byte its first
bit lies in and the next one (zero if there is none). -/
def Obligations.EncodeGroupClosedForm : Prop :=
  ∀ (b : List Byte) (g : Nat), g < (8 * b.length + 4) / 5 →
    let q := 5 * g / 8
    let r := 5 * g % 8
    let W := (b.getD q 0#8).toNat * 256 + (b.getD (q + 1) 0#8).toNat
    (b32Encode b)[g]? = some (alpha (BitVec.ofNat 5 (W / 2 ^ (11 - r))))

/-- The prefix law of rule R120: whole quanta encode independently of what follows. -/
def Obligations.EncodePrefixLaw : Prop :=
  ∀ b c : List Byte, b.length % 5 = 0 → b32Encode (b ++ c) = b32Encode b ++ b32Encode c

/-- The 8-to-5 reference datapath of rule R119 emits exactly `Encode`, and after the last byte
`CNT = 8n mod 5` and `ACC < 2^CNT`. -/
def Obligations.RepackEncodeIsEncode : Prop :=
  ∀ b : List Byte,
    repackEncode b = b32Encode b ∧
    (repackBytes repackStart b).2.cnt.toNat = 8 * b.length % 5 ∧
    (repackBytes repackStart b).2.acc.toNat < 2 ^ (8 * b.length % 5)

/-! ## The function Decode (41) -/

/-- Rules R132, R134, R135: the trailing run is the longest suffix of `=`; its length alone decides
`PadCount`; after that a `=` before it decides `PadPos`; after that a code outside the alphabet decides
`Symbol`; `Decode` fails with no other cause. -/
def Obligations.DecodeFailureCauses : Prop :=
  ∀ t : List Byte,
    let P := trailingPads t
    let D := t.length - P
    (P ≤ t.length ∧ (∀ i, D ≤ i → i < t.length → t[i]? = some padSymbol) ∧
      (0 < D → t[D - 1]? ≠ some padSymbol)) ∧
    (b32Decode t = .fail .padCount ↔ ¬(P = 0 ∨ P = 1 ∨ P = 3 ∨ P = 4 ∨ P = 6)) ∧
    (b32Decode t = .fail .padPos ↔
      (P = 0 ∨ P = 1 ∨ P = 3 ∨ P = 4 ∨ P = 6) ∧ ∃ i, i < D ∧ t[i]? = some padSymbol) ∧
    (b32Decode t = .fail .symbol ↔
      (P = 0 ∨ P = 1 ∨ P = 3 ∨ P = 4 ∨ P = 6) ∧ (∀ i, i < D → t[i]? ≠ some padSymbol) ∧
        ∃ i c, i < D ∧ t[i]? = some c ∧ symIndex c = .none) ∧
    b32Decode t ≠ .fail .length ∧ b32Decode t ≠ .fail .badCmd

/-- The accepted set of rule R145: data symbols, then one final run of 0, 1, 3, 4 or 6 `=`, and nothing
else is checked. -/
def Obligations.DecodeAcceptsExactly : Prop :=
  ∀ t : List Byte,
    (∃ o, b32Decode t = .ok o) ↔
      ∃ (vs : List Group) (p : Nat), (p = 0 ∨ p = 1 ∨ p = 3 ∨ p = 4 ∨ p = 6) ∧
        t = vs.map alpha ++ List.replicate p padSymbol

/-- What an accepted text decodes to: `(5D) div 8` bytes, each cut out of the 15 bits of three
consecutive indices (the closed form of rule R139), whatever bits are discarded (rule R140). -/
def Obligations.DecodeBytesClosedForm : Prop :=
  ∀ (vs : List Group) (p : Nat), (p = 0 ∨ p = 1 ∨ p = 3 ∨ p = 4 ∨ p = 6) →
    ∃ o : List Byte, b32Decode (vs.map alpha ++ List.replicate p padSymbol) = .ok o ∧
      o.length = 5 * vs.length / 8 ∧
      ∀ k, k < o.length →
        let q := 8 * k / 5
        let r := 8 * k % 5
        let W := (vs.getD q 0#5).toNat * 1024 + (vs.getD (q + 1) 0#5).toNat * 32 +
          (vs.getD (q + 2) 0#5).toNat
        o[k]? = some (BitVec.ofNat 8 (W / 2 ^ (7 - r)))

/-- The 5-to-8 reference datapath of rule R144 computes exactly `Decode`, and at its end `CNT` is the
number of discarded bits and `ACC < 2^CNT`. -/
def Obligations.RepackDecodeIsDecode : Prop :=
  (∀ t : List Byte, repackDecode t = b32Decode t) ∧
  (∀ vs : List Group,
    (repackGroups repackStart vs).2.cnt.toNat = 5 * vs.length % 8 ∧
    (repackGroups repackStart vs).2.acc.toNat < 2 ^ (5 * vs.length % 8))

/-- Rule R147 (a) and (c): decoding an encoding gives the bytes back, for every length; so re-encoding
what an accepted text decodes to loses nothing. -/
def Obligations.DecodeOfEncode : Prop :=
  (∀ b : List Byte, b32Decode (b32Encode b) = .ok b) ∧
  (∀ (x o : List Byte), b32Decode x = .ok o → b32Decode (b32Encode o) = .ok o)

/-- Rule R147 (b): encoding what an accepted text decodes to gives the text back exactly when the text is
canonical, and the canonical texts are the outputs of `Encode` (rules R11, R84). -/
def Obligations.EncodeOfDecodeIffCanonical : Prop :=
  (∀ x o : List Byte, b32Decode x = .ok o → (b32Encode o = x ↔ isCanonical x = true)) ∧
  (∀ x : List Byte, isCanonical x = true ↔ ∃ b, x = b32Encode b)

/-! ## The commands (40, 41, 42) -/

/-- Rule R118, with the frame: an `ENC` whose source fits completes, writes exactly `TBUF[0..L)` and
`TLEN`, each symbol one of the 33 codes, and ends with `STATUS = {BUSY=0, DONE=1, ERR=0}`. Everything
else is unchanged but the hidden registers, which the reference datapath uses. -/
def Obligations.EncWritesTextAndLength : Prop :=
  ∀ s : State, s.blen.toNat ≤ s.bcap →
    ∃ t : State, exec .enc s = .next t ∧
      t.status = { busy := false, done := true, err := .none } ∧
      t.tlen.toNat = (b32Encode s.byteOperand).length ∧
      t.tlen.toNat ≤ s.tcap ∧
      (∀ i, i < t.tlen.toNat → (b32Encode s.byteOperand)[i]? = some (t.tbufAt i)) ∧
      (∀ i, i < t.tlen.toNat → t.tbufAt i = padSymbol ∨ ∃ v : Group, t.tbufAt i = alpha v) ∧
      (∀ i, t.tlen.toNat ≤ i → t.tbufAt i = s.tbufAt i) ∧
      (∀ i, t.bbufAt i = s.bbufAt i) ∧
      t.blen = s.blen ∧ t.cmd = s.cmd ∧ t.cap = s.cap ∧ t.draw = s.draw ∧
      t.reply = s.reply ∧ t.schedule = s.schedule

/-- Rule R142, with the frame: a `DEC` whose source fits and is accepted completes, writes exactly
`BBUF[0..M)` and `BLEN`, and ends with `STATUS = {BUSY=0, DONE=1, ERR=0}`. Everything else is unchanged
but the hidden registers, which the reference datapath uses. -/
def Obligations.DecWritesBytesAndLength : Prop :=
  ∀ (s : State) (o : List Byte), s.tlen.toNat ≤ s.tcap → b32Decode s.textOperand = .ok o →
    ∃ t : State, exec .dec s = .next t ∧
      t.status = { busy := false, done := true, err := .none } ∧
      t.blen.toNat = o.length ∧
      t.blen.toNat = 5 * (s.tlen.toNat - trailingPads s.textOperand) / 8 ∧
      t.blen.toNat ≤ s.bcap ∧
      (∀ i, i < t.blen.toNat → o[i]? = some (t.bbufAt i)) ∧
      (∀ i, t.blen.toNat ≤ i → t.bbufAt i = s.bbufAt i) ∧
      (∀ i, t.tbufAt i = s.tbufAt i) ∧
      t.tlen = s.tlen ∧ t.cmd = s.cmd ∧ t.cap = s.cap ∧ t.draw = s.draw ∧
      t.reply = s.reply ∧ t.schedule = s.schedule

/-- A `DEC` whose source fits and is rejected completes with the cause's code and changes nothing but
`STATUS`: no partial results (rules R130, R142, R183). -/
def Obligations.DecRejectedChangesOnlyStatus : Prop :=
  ∀ (s : State) (c : Cause), s.tlen.toNat ≤ s.tcap → b32Decode s.textOperand = .fail c →
    exec .dec s = .next { s with status := { busy := false, done := true, err := c.err } }

/-- Rule R165: each command first compares its source length with its source's capacity; above it the
command raises `Length` and changes nothing but `STATUS`; at or below it the command completes without
`Length`. The other length register is not looked at. -/
def Obligations.CapacityCheck : Prop :=
  ∀ s : State,
    (s.bcap < s.blen.toNat →
      exec .enc s = .next { s with status := { busy := false, done := true, err := .length } }) ∧
    (s.tcap < s.tlen.toNat →
      exec .dec s = .next { s with status := { busy := false, done := true, err := .length } }) ∧
    (s.blen.toNat ≤ s.bcap → ∃ t, exec .enc s = .next t ∧ t.status.err ≠ .length) ∧
    (s.tlen.toNat ≤ s.tcap → ∃ t, exec .dec s = .next t ∧ t.status.err ≠ .length)

/-- The hidden registers after a successful command are what the reference datapath leaves; a fault
leaves them alone. This is the model's reading of rules R33, R119, R144 (log 7). -/
def Obligations.RepackRegistersAfterCommand : Prop :=
  ∀ s t : State,
    (exec .enc s = .next t → t.status.err = .none →
      t.acc = (repackBytes repackStart s.byteOperand).2.acc ∧ t.cnt.toNat = 8 * s.blen.toNat % 5) ∧
    (exec .dec s = .next t → t.status.err = .none →
      (∀ vs, validateText s.textOperand = .ok vs → t.acc = (repackGroups repackStart vs).2.acc) ∧
      t.cnt.toNat = 5 * (s.tlen.toNat - trailingPads s.textOperand) % 8) ∧
    (∀ i, exec i s = .next t → t.status.err ≠ .none → t.acc = s.acc ∧ t.cnt = s.cnt)

/-- `ERR` is one the host reports as `DecodeError` (codes 1, 2, 3; rule R182) exactly when the text fits
and `Decode` rejects it. -/
def Obligations.DecodeErrorIffMalformed : Prop :=
  ∀ s : State, ∃ t : State, exec .dec s = .next t ∧
    (t.status.err.isDecodeError = true ↔
      s.tlen.toNat ≤ s.tcap ∧ ∀ o, b32Decode s.textOperand ≠ .ok o)

/-- Rule R162: `ENC` followed by `DEC` decodes the text just produced and restores `BLEN` and `BBUF` to
what they already are. -/
def Obligations.EncThenDecRestoresBytes : Prop :=
  ∀ s : State, s.blen.toNat ≤ s.bcap →
    ∃ t u : State, exec .enc s = .next t ∧ exec .dec t = .next u ∧
      u.status = { busy := false, done := true, err := .none } ∧
      u.blen = s.blen ∧ u.tlen = t.tlen ∧
      (∀ i, u.bbufAt i = s.bbufAt i) ∧ (∀ i, u.tbufAt i = t.tbufAt i)

/-- Running a command twice in a row gives the same state as running it once, faults included (rules
R110, R130, R166, R188). -/
def Obligations.RepeatedCommandChangesNothing : Prop :=
  ∀ (i : Instr) (s : State), s.Inv → ∃ t : State, exec i s = .next t ∧ exec i t = .next t

/-- Rule R166: the outcome of a command (fault code, result length, result contents) is a function of the
command word, the source length and the first `len` locations of the source buffer; two instances of one
capacity that agree on these agree on the outcome, whatever else differs. -/
def Obligations.OutcomeDependsOnSourceOnly : Prop :=
  ∀ s u : State, s.cmd = u.cmd → s.cap = u.cap →
    (decode s.cmd = .command .enc →
      s.blen = u.blen ∧ ∀ i, i < s.blen.toNat → s.bbufAt i = u.bbufAt i) →
    (decode s.cmd = .command .dec →
      s.tlen = u.tlen ∧ ∀ i, i < s.tlen.toNat → s.tbufAt i = u.tbufAt i) →
    ∃ s' u' : State, s.complete = .next s' ∧ u.complete = .next u' ∧ s'.status = u'.status ∧
      (decode s.cmd = .command .enc → s'.status.err = .none →
        s'.tlen = u'.tlen ∧ ∀ i, i < s'.tlen.toNat → s'.tbufAt i = u'.tbufAt i) ∧
      (decode s.cmd = .command .dec → s'.status.err = .none →
        s'.blen = u'.blen ∧ ∀ i, i < s'.blen.toNat → s'.bbufAt i = u'.bbufAt i)

/-! ## Sequencing (42) and faults (60) -/

/-- Rule R160: an accepted write of any word to `CMD` latches it whole, sets `STATUS = {BUSY=1, DONE=0,
ERR=0}`, clears the hidden registers and changes nothing else; the word is not decoded. While busy the
write accepts nothing. -/
def Obligations.CommandWriteAccepted : Prop :=
  ∀ (s : State) (v : Word) (rest : List Move), s.schedule = .host (.write 0x00000#18 v) :: rest →
    (s.status.busy = false →
      step s = .next { s with
        cmd := v
        status := { busy := true, done := false, err := .none }
        acc := 0#12
        cnt := 0#4
        schedule := rest }) ∧
    (s.status.busy = true → step s = .next { s with schedule := rest })

/-- A step runs the decoded command (rule R163): at the engine's turn a busy block performs the command
its latched word decodes to, or raises `BadCmd`; when the schedule is used up the turn is the engine's
(the model's fairness, log 2). -/
def Obligations.StepRunsDecodedCommand : Prop :=
  ∀ (s : State) (rest : List Move), s.status.busy = true →
    (s.schedule = .engine :: rest ∨ (s.schedule = [] ∧ rest = [])) →
      (∀ i, decode s.cmd = .command i → step s = exec i { s with schedule := rest }) ∧
      (∀ why, decode s.cmd = .reserved why →
        step s = .next { s with
          status := { busy := false, done := true, err := .badCmd }
          schedule := rest })

/-- Rule R163: the completion step is enabled if and only if `BUSY = 1`, always completes, and every path
ends with `BUSY = 0` and `DONE = 1`; while idle the engine's turn changes nothing. -/
def Obligations.CompletionEndsBusy : Prop :=
  ∀ (s : State) (rest : List Move), s.schedule = .engine :: rest →
    (s.status.busy = true → ∃ t, step s = .next t ∧ t.status.busy = false ∧ t.status.done = true ∧
      t.cmd = s.cmd ∧ t.schedule = rest) ∧
    (s.status.busy = false → step s = .next { s with schedule := rest })

/-- Rule R88: every word but the two of the table is accepted and latched like any other, and its
completion step raises `BadCmd` with no buffer and no length register changed. -/
def Obligations.ReservedWordFaults : Prop :=
  ∀ (s : State) (v : Word) (rest : List Move), v ≠ 0x00000001#32 → v ≠ 0x00000002#32 →
    s.status.busy = false → s.schedule = .host (.write 0x00000#18 v) :: .engine :: rest →
      ∃ t u : State, step s = .next t ∧ t.cmd = v ∧ t.status.busy = true ∧ step t = .next u ∧
        u = { s with
          cmd := v
          status := { busy := false, done := true, err := .badCmd }
          acc := 0#12
          cnt := 0#4
          schedule := rest }

/-- Rule R183: a completion that ends in a fault sets `STATUS = {BUSY=0, DONE=1, ERR=code(cause)}` and
changes nothing else at all; the codes of the causes are 1 to 5. -/
def Obligations.FaultChangesOnlyStatus : Prop :=
  (∀ s : State, ∃ t : State, s.complete = .next t ∧
    (t.status.err ≠ .none → ∃ c : Cause,
      t = { s with status := { busy := false, done := true, err := c.err } })) ∧
  [Cause.padCount, .padPos, .symbol, .length, .badCmd].map (fun c => c.err.code) =
    [1#3, 2#3, 3#3, 4#3, 5#3]

/-- The priority of rule R185: `BadCmd`, then `Length`, then `PadCount`, then `PadPos`, then `Symbol`;
each code is reported exactly when its condition holds and no earlier one does. -/
def Obligations.FaultPriority : Prop :=
  ∀ s : State, ∃ t : State, s.complete = .next t ∧
    (t.status.err = .badCmd ↔ ∃ why, decode s.cmd = .reserved why) ∧
    (t.status.err = .length ↔
      (decode s.cmd = .command .enc ∧ s.bcap < s.blen.toNat) ∨
      (decode s.cmd = .command .dec ∧ s.tcap < s.tlen.toNat)) ∧
    (t.status.err = .padCount ↔
      decode s.cmd = .command .dec ∧ s.tlen.toNat ≤ s.tcap ∧
        trailingPads s.textOperand ∉ [0, 1, 3, 4, 6]) ∧
    (t.status.err = .padPos ↔
      decode s.cmd = .command .dec ∧ s.tlen.toNat ≤ s.tcap ∧
        trailingPads s.textOperand ∈ [0, 1, 3, 4, 6] ∧
        ∃ i, i < s.tlen.toNat - trailingPads s.textOperand ∧ s.tbufAt i = padSymbol) ∧
    (t.status.err = .symbol ↔
      decode s.cmd = .command .dec ∧ s.tlen.toNat ≤ s.tcap ∧
        trailingPads s.textOperand ∈ [0, 1, 3, 4, 6] ∧
        (∀ i, i < s.tlen.toNat - trailingPads s.textOperand → s.tbufAt i ≠ padSymbol) ∧
        ∃ i, i < s.tlen.toNat - trailingPads s.textOperand ∧ symIndex (s.tbufAt i) = .none)

/-- The state machine of rule R161: the block becomes busy only by an accepted write to `CMD`, and stops
being busy only by the engine's turn or a reset. -/
def Obligations.BusyTransitions : Prop :=
  ∀ s t : State, step s = .next t →
    (s.status.busy = false → t.status.busy = true →
      ∃ v rest, s.schedule = .host (.write 0x00000#18 v) :: rest ∧ t.cmd = v) ∧
    (s.status.busy = true → t.status.busy = false →
      s.schedule = [] ∨ ∃ m rest, s.schedule = m :: rest ∧ (m = .engine ∨ m = .reset))

/-- While a command stays in flight nothing of the block changes: host writes are dropped and reads have
no side effect, so the operands at completion are those at acceptance (rules R55, R58, R59, R163). -/
def Obligations.BusyFreezesBlock : Prop :=
  ∀ s t : State, step s = .next t → s.status.busy = true → t.status.busy = true → s.sameBlock t

/-- Every step has a next state: no transaction, command or reset stops the machine (rules R51, R163,
R180, R191). -/
def Obligations.StepAlwaysContinues : Prop :=
  ∀ s : State, ∃ t : State, step s = .next t

/-- A busy block completes within as many steps as its schedule is long, and one more (rule R164, by the
model's fairness, log 2): polling terminates. -/
def Obligations.BusyEnds : Prop :=
  ∀ s : State, s.status.busy = true →
    ∃ k t, k ≤ s.schedule.length + 1 ∧ Sys2Proof.core.run k s = .next t ∧ t.status.busy = false

/-- Any finite number of polls may read busy before the completion step (rule R164): no bound on the
delay is built into the model. -/
def Obligations.DelayIsUnbounded : Prop :=
  ∀ (s : State) (v : Word) (k : Nat) (rest : List Move), s.status.busy = false →
    s.schedule = .host (.write 0x00000#18 v) ::
      (List.replicate k (Move.host (.read 0x00001#18)) ++ .engine :: rest) →
    ∃ t, Sys2Proof.core.run (k + 1) s = .next t ∧ t.status.busy = true ∧ t.cmd = v ∧
      t.schedule = .engine :: rest ∧ (0 < k → t.reply = some 0x00000001#32)

/-! ## The port and the location space (10, 20) -/

/-- Rule R56: a read is allowed in every state, changes nothing of the block, and returns the named
register, the buffer location zero-extended, or 0 where nothing is mapped. -/
def Obligations.HostReadReturns : Prop :=
  ∀ (s : State) (a : LocAddr) (rest : List Move), s.schedule = .host (.read a) :: rest →
    ∃ v : Word, step s = .next { s with reply := some v, schedule := rest } ∧
      (a = 0x00000#18 → v = s.cmd) ∧
      (a = 0x00001#18 → v.toNat = s.status.err.code.toNat * 4 + s.status.done.toNat * 2 +
        s.status.busy.toNat) ∧
      (a = 0x00002#18 → v.toNat = s.blen.toNat) ∧
      (a = 0x00003#18 → v.toNat = s.tlen.toNat) ∧
      (a = 0x00004#18 → v.toNat = s.cap.toNat) ∧
      (5 ≤ a.toNat → a.toNat < 0x10000 → v = 0#32) ∧
      (∀ i, i < s.bcap → a.toNat = 0x10000 + i → v.toNat = (s.bbufAt i).toNat) ∧
      (0x10000 + s.bcap ≤ a.toNat → a.toNat < 0x20000 → v = 0#32) ∧
      (∀ i, i < s.tcap → a.toNat = 0x20000 + i → v.toNat = (s.tbufAt i).toNat) ∧
      (0x20000 + s.tcap ≤ a.toNat → v = 0#32)

/-- Rule R57: a write is dropped while busy; while idle it starts a command, stores the low 16 bits in a
length register or the low 8 in a buffer location, and has no effect on a read-only register or an
unmapped location. Nothing else changes. -/
def Obligations.HostWriteStores : Prop :=
  ∀ (s : State) (a : LocAddr) (v : Word) (rest : List Move),
    s.schedule = .host (.write a v) :: rest →
    ∃ t : State, step s = .next t ∧
      (s.status.busy = true → t = { s with schedule := rest }) ∧
      (s.status.busy = false →
        (a = 0x00000#18 → t = { s with
          cmd := v
          status := { busy := true, done := false, err := .none }
          acc := 0#12
          cnt := 0#4
          schedule := rest }) ∧
        (a = 0x00001#18 → t = { s with schedule := rest }) ∧
        (a = 0x00002#18 → t = { s with blen := v.setWidth 16, schedule := rest }) ∧
        (a = 0x00003#18 → t = { s with tlen := v.setWidth 16, schedule := rest }) ∧
        (4 ≤ a.toNat → a.toNat < 0x10000 → t = { s with schedule := rest }) ∧
        (∀ i, i < s.bcap → a.toNat = 0x10000 + i →
          t = { s with bbuf := t.bbuf, schedule := rest } ∧ t.bbufAt i = v.setWidth 8 ∧
            ∀ j, j ≠ i → t.bbufAt j = s.bbufAt j) ∧
        (0x10000 + s.bcap ≤ a.toNat → a.toNat < 0x20000 → t = { s with schedule := rest }) ∧
        (∀ i, i < s.tcap → a.toNat = 0x20000 + i →
          t = { s with tbuf := t.tbuf, schedule := rest } ∧ t.tbufAt i = v.setWidth 8 ∧
            ∀ j, j ≠ i → t.tbufAt j = s.tbufAt j) ∧
        (0x20000 + s.tcap ≤ a.toNat → t = { s with schedule := rest }))

/-- A host write performed while idle is seen by a later host read of the same location (rule R62 (a)):
the low 8 bits at a buffer location, the low 16 at a length register. -/
def Obligations.ReadSeesIdleWrite : Prop :=
  ∀ (s : State) (a : LocAddr) (v : Word) (rest : List Move), s.status.busy = false →
    s.schedule = .host (.write a v) :: .host (.read a) :: rest →
    ∃ t u : State, step s = .next t ∧ step t = .next u ∧
      ((a = 0x00002#18 ∨ a = 0x00003#18) → u.reply = some (v &&& 0x0000FFFF#32)) ∧
      ((∃ i, (i < s.bcap ∧ a.toNat = 0x10000 + i) ∨ (i < s.tcap ∧ a.toNat = 0x20000 + i)) →
        u.reply = some (v &&& 0x000000FF#32))

/-- Rule R29: `CAP` reads as `QCAP` in bits 12:0 and zero above, a write to it is ignored, and no step
changes it, reset included. -/
def Obligations.CapIsConstant : Prop :=
  (∀ s t : State, step s = .next t → t.cap = s.cap) ∧
  (∀ s : State, (s.memRead 0x00004#18).toNat = s.cap.toNat) ∧
  (∀ (s : State) (v : Word), s.memWrite 0x00004#18 v = s)

/-! ## One call of the source's functions (42) -/

/-- The canonical sequence for `Encode` (rule R168): begun while idle, with the operand writes in any order
and any delay of the completion, the call returns the text, or `Length` if it is above capacity, and leaves
the block idle. (`n < 2^16`: a longer operand's length fits no length register, rule R27.) -/
def Obligations.CallEncodeReturnsText : Prop :=
  ∀ (s : State) (b : List Byte) (writes : List Move) (k : Nat),
    s.status.busy = false → b.length < 65536 → writes.Perm (lineLDB b) →
    ∃ t : State, t.status.busy = false ∧ t.schedule = s.schedule ∧
      callEncode writes k s =
        .next (if b.length ≤ s.bcap then .value (b32Encode b) else .length, t)

/-- The canonical sequence for `Decode` (rule R168): begun while idle, with the operand writes in any order
and any delay of the completion, the call returns the bytes, `DecodeError` if `Decode` rejects the text, or
`Length` if it is above capacity, and leaves the block idle. (`m < 2^16`: as for `Encode`, rule R28.) -/
def Obligations.CallDecodeReturnsBytes : Prop :=
  ∀ (s : State) (x : List Byte) (writes : List Move) (k : Nat),
    s.status.busy = false → x.length < 65536 → writes.Perm (lineLDT x) →
    ∃ (t : State) (r : CallResult), t.status.busy = false ∧ t.schedule = s.schedule ∧
      callDecode writes k s = .next (r, t) ∧
      (s.tcap < x.length → r = .length) ∧
      (x.length ≤ s.tcap → ∀ o, b32Decode x = .ok o → r = .value o) ∧
      (x.length ≤ s.tcap → ∀ c, b32Decode x = .fail c → r = .decodeError)

/-! ## Reset (10, 70) -/

/-- The values of rule R35 at reset, for every capacity: registers, flags and hidden registers zero, `CAP`
the capacity, and every buffer location a drawn value (log 4). -/
def Obligations.ResetValues : Prop :=
  ∀ q : Quanta,
    (State.resetWith q).cmd = 0#32 ∧ (State.resetWith q).status.toWord = 0#32 ∧
    (State.resetWith q).blen = 0#16 ∧ (State.resetWith q).tlen = 0#16 ∧
    (State.resetWith q).cap = q ∧ (State.resetWith q).acc = 0#12 ∧ (State.resetWith q).cnt = 0#4 ∧
    (∀ i, (State.resetWith q).bbufAt i = Config.drawn (State.resetWith q).draw (0x10000 + i)) ∧
    (∀ i, (State.resetWith q).tbufAt i = Config.drawn (State.resetWith q).draw (0x20000 + i)) ∧
    State.reset = State.resetWith 13#13

/-- The reset event (rules R210, R211), busy or not: registers, flags and hidden registers zero, `CAP`
kept, every buffer location drawn anew (log 4); the host's own fields go on. -/
def Obligations.ResetEvent : Prop :=
  ∀ (s : State) (rest : List Move), s.schedule = .reset :: rest →
    ∃ t : State, step s = .next t ∧
      t.cmd = 0#32 ∧ t.status = { busy := false, done := false, err := .none } ∧
      t.blen = 0#16 ∧ t.tlen = 0#16 ∧ t.acc = 0#12 ∧ t.cnt = 0#4 ∧ t.cap = s.cap ∧
      t.draw ≠ s.draw ∧
      (∀ i, t.bbufAt i = Config.drawn t.draw (0x10000 + i)) ∧
      (∀ i, t.tbufAt i = Config.drawn t.draw (0x20000 + i)) ∧
      t.reply = s.reply ∧ t.schedule = rest

/-- Rule R211: a reset of a busy block abandons the command in flight: the status becomes 0, and the
engine's later turns find nothing to complete. -/
def Obligations.ResetAbandonsCommand : Prop :=
  ∀ (s : State) (rest : List Move), s.status.busy = true → s.schedule = .reset :: .engine :: rest →
    ∃ t : State, step s = .next t ∧ t.status.toWord = 0#32 ∧
      step t = .next { t with schedule := rest }

/-- The first command after reset (rule R215): without a written length `ENC` gives `TLEN = 0` and `DEC`
gives `BLEN = 0`, with `STATUS = 0x02`, at every capacity and whatever the buffers hold. -/
def Obligations.FirstCommandAfterReset : Prop :=
  ∀ (q : Quanta) (draw : Nat) (i : Instr) (rest : List Move),
    ∃ t u : State,
      step { State.resetWith q with
        draw := draw
        schedule := .host (.write 0x00000#18 (encode i)) :: .engine :: rest } = .next t ∧
      step t = .next u ∧ u.status.toWord = 0x00000002#32 ∧ u.blen = 0#16 ∧ u.tlen = 0#16 ∧
      u.bbuf = [] ∧ u.tbuf = [] ∧ u.cmd = encode i

/-! ## Invariants -/

/-- Every step keeps the block's invariant: legal flags (rule R32), canonical buffers within the map (rule
R52), legal hidden registers, cleared while a command is in flight (rules R33, R119, R144, R160). -/
def Obligations.StepKeepsInvariant : Prop :=
  ∀ s t : State, s.Inv → step s = .next t → t.Inv

/-- The invariant holds after reset, at every capacity of at least one quantum. -/
def Obligations.ResetMeetsInvariant : Prop :=
  (∀ q : Quanta, 1 ≤ q.toNat → (State.resetWith q).Inv) ∧ State.reset.Inv

/-- Every step keeps the recorded outcome in agreement with the latched word: `BadCmd` exactly for
reserved words, only `Length` from `ENC`, any other fault from `DEC` (rules R25, R26, R180). -/
def Obligations.StepKeepsOutcomeOfCommand : Prop :=
  ∀ s t : State, s.Inv → s.OutcomeMatches → step s = .next t → t.OutcomeMatches

/-- The recorded outcome agrees with the latched word after reset. -/
def Obligations.ResetOutcomeOfCommand : Prop :=
  ∀ q : Quanta, (State.resetWith q).OutcomeMatches

/-- In every reachable state a read of `STATUS` returns one of the eight words of rule R89, and a fault
code 1, 2 or 3 is there only while `CMD` holds `DEC`'s word (rules R25, R180). -/
def Obligations.ReachableStatus : Prop :=
  ∀ s : State, Reachable s →
    s.memRead 0x00001#18 ∈
      [0x00#32, 0x01#32, 0x02#32, 0x06#32, 0x0A#32, 0x0E#32, 0x12#32, 0x16#32] ∧
    (s.status.err.isDecodeError = true → s.cmd = 0x00000002#32)
end

