-- ==== Sys2Proof/Laws/Bits.lean ====
section
/-!
SUPPORT. Bit strings: the bits of a value and the value of bits undo each other, and slices cut a bit string whole.
-/

namespace Sys2Proof.Machine

/-! ## Bits and values -/

@[simp] theorem length_msbBits {w : Nat} (x : BitVec w) : (msbBits x).length = w := by
  simp [msbBits]

theorem getElem_msbBits {w : Nat} (x : BitVec w) {j : Nat} (h : j < (msbBits x).length) :
    (msbBits x)[j] = x.getLsbD (w - 1 - j) := by
  simp [msbBits]

theorem bitsVal_lt (l : List Bool) : bitsVal l < 2 ^ l.length := by
  induction l with
  | nil => simp [bitsVal]
  | cons b bs ih =>
    have hb : b.toNat ≤ 1 := Bool.toNat_le b
    have : b.toNat * 2 ^ bs.length ≤ 1 * 2 ^ bs.length := Nat.mul_le_mul_right _ hb
    simp only [bitsVal, List.length_cons, pow_succ]
    omega

theorem bitsVal_append (l m : List Bool) :
    bitsVal (l ++ m) = bitsVal l * 2 ^ m.length + bitsVal m := by
  induction l with
  | nil => simp [bitsVal]
  | cons b bs ih =>
    simp only [List.cons_append, bitsVal, ih, List.length_append, pow_add]
    ring

theorem bitsVal_replicate_false (n : Nat) : bitsVal (List.replicate n false) = 0 := by
  induction n with
  | zero => rfl
  | succ n ih => simp [List.replicate_succ, bitsVal, ih]

/-- Bit `i` of the value is the `i`-th bit from the right of the string. -/
theorem testBit_bitsVal (l : List Bool) {i : Nat} (h : i < l.length) :
    (bitsVal l).testBit i = l[l.length - 1 - i] := by
  induction l with
  | nil => simp at h
  | cons b bs ih =>
    have hlt := bitsVal_lt bs
    simp only [bitsVal]
    rw [Nat.mul_comm, Nat.testBit_two_pow_mul_add _ hlt]
    by_cases hi : i < bs.length
    · have hidx : (b :: bs).length - 1 - i = (bs.length - 1 - i) + 1 := by
        simp only [List.length_cons]; omega
      simp only [hi, if_true, ih hi, hidx, List.getElem_cons_succ]
    · have hi' : i = bs.length := by simp only [List.length_cons] at h; omega
      subst hi'
      cases b <;> simp

/-- The bits of the value of a bit string are the string. -/
theorem msbBits_ofNat_bitsVal {w : Nat} (l : List Bool) (h : l.length = w) :
    msbBits (BitVec.ofNat w (bitsVal l)) = l := by
  apply List.ext_getElem
  · simp [h]
  · intro j h1 h2
    have hw : w - 1 - j < w := by omega
    rw [getElem_msbBits, BitVec.getLsbD_ofNat, testBit_bitsVal l (by omega)]
    simp only [hw, decide_true, Bool.true_and]
    congr 1
    omega

/-- The value of the bits of a value is the value. -/
theorem ofNat_bitsVal_msbBits {w : Nat} (x : BitVec w) :
    BitVec.ofNat w (bitsVal (msbBits x)) = x := by
  apply BitVec.eq_of_getLsbD_eq
  intro i hi
  rw [BitVec.getLsbD_ofNat, testBit_bitsVal _ (by simpa using hi), getElem_msbBits]
  simp only [hi, decide_true, Bool.true_and, length_msbBits]
  congr 1
  omega

theorem bitsVal_msbBits {w : Nat} (x : BitVec w) : bitsVal (msbBits x) = x.toNat := by
  have h := congrArg BitVec.toNat (ofNat_bitsVal_msbBits x)
  have hlt := bitsVal_lt (msbBits x)
  simp only [length_msbBits] at hlt
  rwa [BitVec.toNat_ofNat, Nat.mod_eq_of_lt hlt] at h

/-! ## Slices -/

@[simp] theorem length_slices (w n : Nat) (S : List Bool) : (slices w n S).length = n := by
  simp [slices]

theorem slices_succ (w n : Nat) (S : List Bool) :
    slices w (n + 1) S = S.take w :: slices w n (S.drop w) := by
  simp only [slices, List.range_succ_eq_map, List.map_cons, List.map_map, Nat.mul_zero,
    List.drop_zero]
  congr 1
  apply List.map_congr_left
  intro g _
  simp only [Function.comp, List.drop_drop, Nat.mul_succ]
  congr 2
  omega

theorem length_of_mem_slices {w n : Nat} {S : List Bool} (h : w * n ≤ S.length) :
    ∀ x ∈ slices w n S, x.length = w := by
  induction n generalizing S with
  | zero => simp [slices]
  | succ n ih =>
    rw [Nat.mul_succ] at h
    rw [slices_succ]
    intro x hx
    rcases List.mem_cons.1 hx with rfl | hx
    · simp only [List.length_take]; omega
    · exact ih (by simp only [List.length_drop]; omega) x hx

/-- Slices of a bit string of exactly the right length, put together again. -/
theorem flatten_slices {w n : Nat} {S : List Bool} (h : S.length = w * n) :
    (slices w n S).flatten = S := by
  induction n generalizing S with
  | zero =>
    have : S = [] := List.eq_nil_of_length_eq_zero (by simpa using h)
    simp [slices, this]
  | succ n ih =>
    rw [Nat.mul_succ] at h
    rw [slices_succ, List.flatten_cons, ih (by simp only [List.length_drop]; omega),
      List.take_append_drop]

/-- Slicing a concatenation of pieces of the slices' width gives the pieces, whatever follows. -/
theorem slices_flatMap {α : Type} {w : Nat} (f : α → List Bool) (hf : ∀ x, (f x).length = w)
    (l : List α) (R : List Bool) : slices w l.length (l.flatMap f ++ R) = l.map f := by
  induction l with
  | nil => simp [slices]
  | cons x xs ih =>
    rw [List.length_cons, slices_succ, List.flatMap_cons, List.append_assoc]
    have h1 : (f x ++ (xs.flatMap f ++ R)).take w = f x := by
      rw [List.take_append_of_le_length (by simp [hf]), List.take_of_length_le (by simp [hf])]
    have h2 : (f x ++ (xs.flatMap f ++ R)).drop w = xs.flatMap f ++ R := by
      rw [← hf x, List.drop_left]
    rw [h1, h2, ih, List.map_cons]

theorem length_flatMap_const {α : Type} {w : Nat} (f : α → List Bool)
    (hf : ∀ x, (f x).length = w) (l : List α) : (l.flatMap f).length = w * l.length := by
  induction l with
  | nil => simp
  | cons x xs ih =>
    rw [List.flatMap_cons, List.length_append, hf, ih, List.length_cons, Nat.mul_succ]
    omega

/-- The `g`-th slice of a bit string. -/
theorem getElem?_slices (w n : Nat) (S : List Bool) (g : Nat) (h : g < n) :
    (slices w n S)[g]? = some ((S.drop (w*g)).take w) := by
  simp [slices, h]

/-- The value of a prefix of a bit string. -/
theorem bitsVal_take (S : List Bool) (k : Nat) :
    bitsVal (S.take k) = bitsVal S / 2 ^ (S.length - k) := by
  have h1 := bitsVal_append (S.take k) (S.drop k)
  rw [List.take_append_drop, List.length_drop] at h1
  rw [h1, Nat.add_comm, Nat.add_mul_div_right _ _ (Nat.pow_pos (by decide)), Nat.div_eq_of_lt, Nat.zero_add]
  simpa using bitsVal_lt (S.drop k)

/-- The value of a suffix of a bit string. -/
theorem bitsVal_drop (S : List Bool) (k : Nat) :
    bitsVal (S.drop k) = bitsVal S % 2 ^ (S.length - k) := by
  have h1 := bitsVal_append (S.take k) (S.drop k)
  rw [List.take_append_drop, List.length_drop] at h1
  rw [h1, Nat.mul_add_mod', Nat.mod_eq_of_lt]
  simpa using bitsVal_lt (S.drop k)

/-- Cutting `m + n` slices is cutting `m`, then `n` of the rest. -/
theorem slices_add (w m n : Nat) (S : List Bool) :
    slices w (m+n) S = slices w m S ++ slices w n (S.drop (w*m)) := by
  induction m generalizing S with
  | zero => simp [slices]
  | succ m ih =>
    rw [Nat.add_right_comm, slices_succ, slices_succ, ih, List.cons_append, List.drop_drop, Nat.mul_succ, Nat.add_comm]

/-- Slices that end inside the left part do not see the right part. -/
theorem slices_append_left (w n : Nat) (S R : List Bool) (h : w * n ≤ S.length) :
    slices w n (S ++ R) = slices w n S := by
  unfold slices
  apply List.map_congr_left
  intro g hg
  have := List.mem_range.1 hg
  have : w * g + w ≤ w * n := by rw [← Nat.mul_succ]; exact Nat.mul_le_mul_left _ this
  rw [List.drop_append_of_le_length (by omega), List.take_append_of_le_length (by simp; omega)]

/-- A prefix that both zero fills reach does not tell their lengths apart. -/
theorem take_append_replicate_false (S : List Bool) (k n m : Nat) (h : k ≤ S.length + n)
    (h' : k ≤ S.length + m) :
    (S ++ List.replicate n false).take k = (S ++ List.replicate m false).take k := by
  rw [List.take_append, List.take_append, List.take_replicate, List.take_replicate]
  congr 2; omega

end Sys2Proof.Machine
end

