-- ==== Sys2Proof/Laws/Memory.lean ====
section
/-!
SUPPORT. The laws of a buffer: read after write, the canonical form, and the map.
-/

namespace Sys2Proof.Machine

/-! ## One byte -/

theorem Memory.read_write_same (m : Memory) (a : Nat) (v : Byte) :
    (m.write a v).read a = some v := by
  induction m with
  | nil => simp [Memory.write, Memory.read]
  | cons c m ih =>
    obtain ⟨k, u⟩ := c
    simp only [Memory.write]
    split
    · simp [Memory.read]
    · split
      · simp [Memory.read]
      · rename_i h1 h2
        simp [Memory.read, Ne.symm h2, ih]

theorem Memory.read_write_other (m : Memory) {a b : Nat} (v : Byte) (h : b ≠ a) :
    (m.write a v).read b = m.read b := by
  induction m with
  | nil => simp [Memory.write, Memory.read, Ne.symm h]
  | cons c m ih =>
    obtain ⟨k, u⟩ := c
    simp only [Memory.write]
    split
    · simp [Memory.read, Ne.symm h]
    · split
      · rename_i h2
        subst h2
        simp [Memory.read, Ne.symm h]
      · simp [Memory.read, ih]

/-- What a write does, at every index. -/
theorem Memory.read_write (m : Memory) (a b : Nat) (v : Byte) :
    (m.write a v).read b = if b = a then some v else m.read b := by
  split
  · rename_i h; subst h; exact Memory.read_write_same m b v
  · rename_i h; exact Memory.read_write_other m v h

theorem Memory.mem_write {m : Memory} {a : Nat} {v : Byte} {c : Host.Cell} (h : c ∈ m.write a v) :
    c = (a, v) ∨ c ∈ m := by
  induction m with
  | nil => simpa [Memory.write] using h
  | cons d m ih =>
    obtain ⟨k, u⟩ := d
    simp only [Memory.write] at h
    split at h
    · simpa using h
    · split at h
      · rcases List.mem_cons.1 h with h | h
        · exact .inl h
        · exact .inr (List.mem_cons_of_mem _ h)
      · rcases List.mem_cons.1 h with h | h
        · exact .inr (by simp [h])
        · rcases ih h with h | h
          · exact .inl h
          · exact .inr (List.mem_cons_of_mem _ h)

theorem Memory.wf_cons (k : Nat) (u : Byte) (m : Memory) :
    Memory.wf ((k, u) :: m) = true ↔ (∀ c ∈ m, k < c.1) ∧ m.wf = true := by
  simp [Memory.wf]

theorem Memory.wf_write {m : Memory} (a : Nat) (v : Byte) (h : m.wf = true) :
    (m.write a v).wf = true := by
  induction m with
  | nil => simp [Memory.write, Memory.wf]
  | cons d m ih =>
    obtain ⟨k, u⟩ := d
    obtain ⟨hk, hm⟩ := (Memory.wf_cons k u m).1 h
    simp only [Memory.write]
    split
    · rename_i hlt
      refine (Memory.wf_cons ..).2 ⟨?_, h⟩
      intro c hc
      rcases List.mem_cons.1 hc with rfl | hc
      · exact hlt
      · exact lt_trans hlt (hk c hc)
    · split
      · rename_i heq
        subst heq
        exact (Memory.wf_cons ..).2 ⟨hk, hm⟩
      · rename_i h1 h2
        refine (Memory.wf_cons ..).2 ⟨?_, ih hm⟩
        intro c hc
        rcases Memory.mem_write hc with rfl | hc
        · show k < a
          omega
        · exact hk c hc

theorem Memory.inside_write {m : Memory} {n a : Nat} (v : Byte) (ha : a < n)
    (h : m.inside n = true) : (m.write a v).inside n = true := by
  simp only [Memory.inside, List.all_eq_true, decide_eq_true_eq] at h ⊢
  intro c hc
  rcases Memory.mem_write hc with rfl | hc
  · exact ha
  · exact h c hc

/-! ## A range -/

/-- What writing a list at consecutive indices does, at every index. -/
theorem Memory.read_writeRange (vs : List Byte) (m : Memory) (a b : Nat) :
    (m.writeRange a vs).read b =
      if a ≤ b ∧ b < a + vs.length then vs[b - a]? else m.read b := by
  induction vs generalizing m a with
  | nil =>
    have h : ¬(a ≤ b ∧ b < a + ([] : List Byte).length) := by simp
    rw [if_neg h]; rfl
  | cons v vs ih =>
    simp only [Memory.writeRange, ih, Memory.read_write, List.length_cons]
    by_cases h0 : b = a
    · subst h0
      simp
    · by_cases h1 : a + 1 ≤ b ∧ b < a + 1 + vs.length
      · have h2 : a ≤ b ∧ b < a + (vs.length + 1) := by omega
        have h3 : b - a = (b - (a + 1)) + 1 := by omega
        simp [h1, h2, h3]
      · have h2 : ¬(a ≤ b ∧ b < a + (vs.length + 1)) := by omega
        rw [if_neg h1, if_neg h0, if_neg h2]

theorem Memory.wf_writeRange (vs : List Byte) {m : Memory} (a : Nat) (h : m.wf = true) :
    (m.writeRange a vs).wf = true := by
  induction vs generalizing m a with
  | nil => exact h
  | cons v vs ih => exact ih (a + 1) (Memory.wf_write a v h)

theorem Memory.inside_writeRange (vs : List Byte) {m : Memory} {n a : Nat}
    (ha : a + vs.length ≤ n) (h : m.inside n = true) : (m.writeRange a vs).inside n = true := by
  induction vs generalizing m a with
  | nil => exact h
  | cons v vs ih =>
    simp only [List.length_cons] at ha
    exact ih (by omega) (Memory.inside_write v (by omega) h)

/-- Two canonical buffers with the same reading at every index are the same list. -/
theorem Memory.ext_of_read {m n : Memory} (hm : m.wf = true) (hn : n.wf = true)
    (h : ∀ a, m.read a = n.read a) : m = n := by
  have low : ∀ (k : Nat) (m : Memory), (∀ c ∈ m, k < c.1) → ∀ a, a ≤ k → m.read a = none := by
    intro k m
    induction m with
    | nil => intros; rfl
    | cons d m ih =>
      intro hk a ha
      obtain ⟨j, u⟩ := d
      have hj : k < j := hk (j, u) (List.mem_cons_self ..)
      have hne : j ≠ a := by omega
      simp only [Memory.read, hne, if_false]
      exact ih (fun c hc => hk c (List.mem_cons_of_mem _ hc)) a ha
  induction m generalizing n with
  | nil =>
    cases n with
    | nil => rfl
    | cons d n =>
      obtain ⟨j, u⟩ := d
      have := h j
      simp [Memory.read] at this
  | cons d m ih =>
    obtain ⟨k, u⟩ := d
    obtain ⟨hk, hm'⟩ := (Memory.wf_cons ..).1 hm
    cases n with
    | nil =>
      have := h k
      simp [Memory.read] at this
    | cons e n =>
      obtain ⟨j, v⟩ := e
      obtain ⟨hj, hn'⟩ := (Memory.wf_cons ..).1 hn
      have hkj : k = j := by
        rcases Nat.lt_trichotomy k j with hlt | heq | hgt
        · have h1 := h k
          have hne : j ≠ k := by omega
          simp [Memory.read, hne, low j n hj k (by omega)] at h1
        · exact heq
        · have h1 := h j
          have hne : k ≠ j := by omega
          simp [Memory.read, hne, low k m hk j (by omega)] at h1
      subst hkj
      have huv : u = v := by simpa [Memory.read] using h k
      subst huv
      congr 1
      refine ih hm' hn' ?_
      intro a
      by_cases ha : k = a
      · subst ha
        rw [low k m hk k le_rfl, low k n hj k le_rfl]
      · simpa [Memory.read, ha] using h a

end Sys2Proof.Machine
end

