-- ==== Sys2Proof/Laws/State.lean ====
section
/-!
SUPPORT. What each update of State does to each field: one lemma per field per update, true by `rfl`.
-/

namespace Sys2Proof.Machine

variable (s : State)

@[simp] theorem State.setBbuf_cmd (i : Nat) (v : Byte) : (s.setBbuf i v).cmd = s.cmd := rfl
@[simp] theorem State.setBbuf_status (i : Nat) (v : Byte) : (s.setBbuf i v).status = s.status := rfl
@[simp] theorem State.setBbuf_blen (i : Nat) (v : Byte) : (s.setBbuf i v).blen = s.blen := rfl
@[simp] theorem State.setBbuf_tlen (i : Nat) (v : Byte) : (s.setBbuf i v).tlen = s.tlen := rfl
@[simp] theorem State.setBbuf_cap (i : Nat) (v : Byte) : (s.setBbuf i v).cap = s.cap := rfl
@[simp] theorem State.setBbuf_bbuf (i : Nat) (v : Byte) : (s.setBbuf i v).bbuf = s.bbuf.write i v := rfl
@[simp] theorem State.setBbuf_tbuf (i : Nat) (v : Byte) : (s.setBbuf i v).tbuf = s.tbuf := rfl
@[simp] theorem State.setBbuf_acc (i : Nat) (v : Byte) : (s.setBbuf i v).acc = s.acc := rfl
@[simp] theorem State.setBbuf_cnt (i : Nat) (v : Byte) : (s.setBbuf i v).cnt = s.cnt := rfl
@[simp] theorem State.setBbuf_draw (i : Nat) (v : Byte) : (s.setBbuf i v).draw = s.draw := rfl
@[simp] theorem State.setBbuf_reply (i : Nat) (v : Byte) : (s.setBbuf i v).reply = s.reply := rfl
@[simp] theorem State.setBbuf_schedule (i : Nat) (v : Byte) : (s.setBbuf i v).schedule = s.schedule := rfl

@[simp] theorem State.setTbuf_cmd (i : Nat) (v : Byte) : (s.setTbuf i v).cmd = s.cmd := rfl
@[simp] theorem State.setTbuf_status (i : Nat) (v : Byte) : (s.setTbuf i v).status = s.status := rfl
@[simp] theorem State.setTbuf_blen (i : Nat) (v : Byte) : (s.setTbuf i v).blen = s.blen := rfl
@[simp] theorem State.setTbuf_tlen (i : Nat) (v : Byte) : (s.setTbuf i v).tlen = s.tlen := rfl
@[simp] theorem State.setTbuf_cap (i : Nat) (v : Byte) : (s.setTbuf i v).cap = s.cap := rfl
@[simp] theorem State.setTbuf_bbuf (i : Nat) (v : Byte) : (s.setTbuf i v).bbuf = s.bbuf := rfl
@[simp] theorem State.setTbuf_tbuf (i : Nat) (v : Byte) : (s.setTbuf i v).tbuf = s.tbuf.write i v := rfl
@[simp] theorem State.setTbuf_acc (i : Nat) (v : Byte) : (s.setTbuf i v).acc = s.acc := rfl
@[simp] theorem State.setTbuf_cnt (i : Nat) (v : Byte) : (s.setTbuf i v).cnt = s.cnt := rfl
@[simp] theorem State.setTbuf_draw (i : Nat) (v : Byte) : (s.setTbuf i v).draw = s.draw := rfl
@[simp] theorem State.setTbuf_reply (i : Nat) (v : Byte) : (s.setTbuf i v).reply = s.reply := rfl
@[simp] theorem State.setTbuf_schedule (i : Nat) (v : Byte) : (s.setTbuf i v).schedule = s.schedule := rfl

@[simp] theorem State.setBlen_cmd (n : Len) : (s.setBlen n).cmd = s.cmd := rfl
@[simp] theorem State.setBlen_status (n : Len) : (s.setBlen n).status = s.status := rfl
@[simp] theorem State.setBlen_blen (n : Len) : (s.setBlen n).blen = n := rfl
@[simp] theorem State.setBlen_tlen (n : Len) : (s.setBlen n).tlen = s.tlen := rfl
@[simp] theorem State.setBlen_cap (n : Len) : (s.setBlen n).cap = s.cap := rfl
@[simp] theorem State.setBlen_bbuf (n : Len) : (s.setBlen n).bbuf = s.bbuf := rfl
@[simp] theorem State.setBlen_tbuf (n : Len) : (s.setBlen n).tbuf = s.tbuf := rfl
@[simp] theorem State.setBlen_acc (n : Len) : (s.setBlen n).acc = s.acc := rfl
@[simp] theorem State.setBlen_cnt (n : Len) : (s.setBlen n).cnt = s.cnt := rfl
@[simp] theorem State.setBlen_draw (n : Len) : (s.setBlen n).draw = s.draw := rfl
@[simp] theorem State.setBlen_reply (n : Len) : (s.setBlen n).reply = s.reply := rfl
@[simp] theorem State.setBlen_schedule (n : Len) : (s.setBlen n).schedule = s.schedule := rfl

@[simp] theorem State.setTlen_cmd (n : Len) : (s.setTlen n).cmd = s.cmd := rfl
@[simp] theorem State.setTlen_status (n : Len) : (s.setTlen n).status = s.status := rfl
@[simp] theorem State.setTlen_blen (n : Len) : (s.setTlen n).blen = s.blen := rfl
@[simp] theorem State.setTlen_tlen (n : Len) : (s.setTlen n).tlen = n := rfl
@[simp] theorem State.setTlen_cap (n : Len) : (s.setTlen n).cap = s.cap := rfl
@[simp] theorem State.setTlen_bbuf (n : Len) : (s.setTlen n).bbuf = s.bbuf := rfl
@[simp] theorem State.setTlen_tbuf (n : Len) : (s.setTlen n).tbuf = s.tbuf := rfl
@[simp] theorem State.setTlen_acc (n : Len) : (s.setTlen n).acc = s.acc := rfl
@[simp] theorem State.setTlen_cnt (n : Len) : (s.setTlen n).cnt = s.cnt := rfl
@[simp] theorem State.setTlen_draw (n : Len) : (s.setTlen n).draw = s.draw := rfl
@[simp] theorem State.setTlen_reply (n : Len) : (s.setTlen n).reply = s.reply := rfl
@[simp] theorem State.setTlen_schedule (n : Len) : (s.setTlen n).schedule = s.schedule := rfl

@[simp] theorem State.writeText_cmd (t : List Byte) : (s.writeText t).cmd = s.cmd := rfl
@[simp] theorem State.writeText_status (t : List Byte) : (s.writeText t).status = s.status := rfl
@[simp] theorem State.writeText_blen (t : List Byte) : (s.writeText t).blen = s.blen := rfl
@[simp] theorem State.writeText_tlen (t : List Byte) : (s.writeText t).tlen = BitVec.ofNat 16 t.length := rfl
@[simp] theorem State.writeText_cap (t : List Byte) : (s.writeText t).cap = s.cap := rfl
@[simp] theorem State.writeText_bbuf (t : List Byte) : (s.writeText t).bbuf = s.bbuf := rfl
@[simp] theorem State.writeText_tbuf (t : List Byte) : (s.writeText t).tbuf = s.tbuf.writeRange 0 t := rfl
@[simp] theorem State.writeText_acc (t : List Byte) : (s.writeText t).acc = s.acc := rfl
@[simp] theorem State.writeText_cnt (t : List Byte) : (s.writeText t).cnt = s.cnt := rfl
@[simp] theorem State.writeText_draw (t : List Byte) : (s.writeText t).draw = s.draw := rfl
@[simp] theorem State.writeText_reply (t : List Byte) : (s.writeText t).reply = s.reply := rfl
@[simp] theorem State.writeText_schedule (t : List Byte) : (s.writeText t).schedule = s.schedule := rfl

@[simp] theorem State.writeBytes_cmd (o : List Byte) : (s.writeBytes o).cmd = s.cmd := rfl
@[simp] theorem State.writeBytes_status (o : List Byte) : (s.writeBytes o).status = s.status := rfl
@[simp] theorem State.writeBytes_blen (o : List Byte) : (s.writeBytes o).blen = BitVec.ofNat 16 o.length := rfl
@[simp] theorem State.writeBytes_tlen (o : List Byte) : (s.writeBytes o).tlen = s.tlen := rfl
@[simp] theorem State.writeBytes_cap (o : List Byte) : (s.writeBytes o).cap = s.cap := rfl
@[simp] theorem State.writeBytes_bbuf (o : List Byte) : (s.writeBytes o).bbuf = s.bbuf.writeRange 0 o := rfl
@[simp] theorem State.writeBytes_tbuf (o : List Byte) : (s.writeBytes o).tbuf = s.tbuf := rfl
@[simp] theorem State.writeBytes_acc (o : List Byte) : (s.writeBytes o).acc = s.acc := rfl
@[simp] theorem State.writeBytes_cnt (o : List Byte) : (s.writeBytes o).cnt = s.cnt := rfl
@[simp] theorem State.writeBytes_draw (o : List Byte) : (s.writeBytes o).draw = s.draw := rfl
@[simp] theorem State.writeBytes_reply (o : List Byte) : (s.writeBytes o).reply = s.reply := rfl
@[simp] theorem State.writeBytes_schedule (o : List Byte) : (s.writeBytes o).schedule = s.schedule := rfl

@[simp] theorem State.setRepack_cmd (a : Acc) (c : Cnt) : (s.setRepack a c).cmd = s.cmd := rfl
@[simp] theorem State.setRepack_status (a : Acc) (c : Cnt) : (s.setRepack a c).status = s.status := rfl
@[simp] theorem State.setRepack_blen (a : Acc) (c : Cnt) : (s.setRepack a c).blen = s.blen := rfl
@[simp] theorem State.setRepack_tlen (a : Acc) (c : Cnt) : (s.setRepack a c).tlen = s.tlen := rfl
@[simp] theorem State.setRepack_cap (a : Acc) (c : Cnt) : (s.setRepack a c).cap = s.cap := rfl
@[simp] theorem State.setRepack_bbuf (a : Acc) (c : Cnt) : (s.setRepack a c).bbuf = s.bbuf := rfl
@[simp] theorem State.setRepack_tbuf (a : Acc) (c : Cnt) : (s.setRepack a c).tbuf = s.tbuf := rfl
@[simp] theorem State.setRepack_acc (a : Acc) (c : Cnt) : (s.setRepack a c).acc = a := rfl
@[simp] theorem State.setRepack_cnt (a : Acc) (c : Cnt) : (s.setRepack a c).cnt = c := rfl
@[simp] theorem State.setRepack_draw (a : Acc) (c : Cnt) : (s.setRepack a c).draw = s.draw := rfl
@[simp] theorem State.setRepack_reply (a : Acc) (c : Cnt) : (s.setRepack a c).reply = s.reply := rfl
@[simp] theorem State.setRepack_schedule (a : Acc) (c : Cnt) : (s.setRepack a c).schedule = s.schedule := rfl

@[simp] theorem State.acceptCommand_cmd (v : Word) : (s.acceptCommand v).cmd = v := rfl
@[simp] theorem State.acceptCommand_status (v : Word) : (s.acceptCommand v).status = { busy := true, done := false, err := .none } := rfl
@[simp] theorem State.acceptCommand_blen (v : Word) : (s.acceptCommand v).blen = s.blen := rfl
@[simp] theorem State.acceptCommand_tlen (v : Word) : (s.acceptCommand v).tlen = s.tlen := rfl
@[simp] theorem State.acceptCommand_cap (v : Word) : (s.acceptCommand v).cap = s.cap := rfl
@[simp] theorem State.acceptCommand_bbuf (v : Word) : (s.acceptCommand v).bbuf = s.bbuf := rfl
@[simp] theorem State.acceptCommand_tbuf (v : Word) : (s.acceptCommand v).tbuf = s.tbuf := rfl
@[simp] theorem State.acceptCommand_acc (v : Word) : (s.acceptCommand v).acc = 0#12 := rfl
@[simp] theorem State.acceptCommand_cnt (v : Word) : (s.acceptCommand v).cnt = 0#4 := rfl
@[simp] theorem State.acceptCommand_draw (v : Word) : (s.acceptCommand v).draw = s.draw := rfl
@[simp] theorem State.acceptCommand_reply (v : Word) : (s.acceptCommand v).reply = s.reply := rfl
@[simp] theorem State.acceptCommand_schedule (v : Word) : (s.acceptCommand v).schedule = s.schedule := rfl

@[simp] theorem State.finish_cmd (e : Err) : (s.finish e).cmd = s.cmd := rfl
@[simp] theorem State.finish_status (e : Err) : (s.finish e).status = { busy := false, done := true, err := e } := rfl
@[simp] theorem State.finish_blen (e : Err) : (s.finish e).blen = s.blen := rfl
@[simp] theorem State.finish_tlen (e : Err) : (s.finish e).tlen = s.tlen := rfl
@[simp] theorem State.finish_cap (e : Err) : (s.finish e).cap = s.cap := rfl
@[simp] theorem State.finish_bbuf (e : Err) : (s.finish e).bbuf = s.bbuf := rfl
@[simp] theorem State.finish_tbuf (e : Err) : (s.finish e).tbuf = s.tbuf := rfl
@[simp] theorem State.finish_acc (e : Err) : (s.finish e).acc = s.acc := rfl
@[simp] theorem State.finish_cnt (e : Err) : (s.finish e).cnt = s.cnt := rfl
@[simp] theorem State.finish_draw (e : Err) : (s.finish e).draw = s.draw := rfl
@[simp] theorem State.finish_reply (e : Err) : (s.finish e).reply = s.reply := rfl
@[simp] theorem State.finish_schedule (e : Err) : (s.finish e).schedule = s.schedule := rfl

@[simp] theorem State.resetEvent_cmd : (s.resetEvent).cmd = 0#32 := rfl
@[simp] theorem State.resetEvent_status : (s.resetEvent).status = { busy := false, done := false, err := .none } := rfl
@[simp] theorem State.resetEvent_blen : (s.resetEvent).blen = 0#16 := rfl
@[simp] theorem State.resetEvent_tlen : (s.resetEvent).tlen = 0#16 := rfl
@[simp] theorem State.resetEvent_cap : (s.resetEvent).cap = s.cap := rfl
@[simp] theorem State.resetEvent_bbuf : (s.resetEvent).bbuf = [] := rfl
@[simp] theorem State.resetEvent_tbuf : (s.resetEvent).tbuf = [] := rfl
@[simp] theorem State.resetEvent_acc : (s.resetEvent).acc = 0#12 := rfl
@[simp] theorem State.resetEvent_cnt : (s.resetEvent).cnt = 0#4 := rfl
@[simp] theorem State.resetEvent_draw : (s.resetEvent).draw = s.draw + 1 := rfl
@[simp] theorem State.resetEvent_reply : (s.resetEvent).reply = s.reply := rfl
@[simp] theorem State.resetEvent_schedule : (s.resetEvent).schedule = s.schedule := rfl

@[simp] theorem State.hostRead_cmd (a : LocAddr) : (s.hostRead a).cmd = s.cmd := rfl
@[simp] theorem State.hostRead_status (a : LocAddr) : (s.hostRead a).status = s.status := rfl
@[simp] theorem State.hostRead_blen (a : LocAddr) : (s.hostRead a).blen = s.blen := rfl
@[simp] theorem State.hostRead_tlen (a : LocAddr) : (s.hostRead a).tlen = s.tlen := rfl
@[simp] theorem State.hostRead_cap (a : LocAddr) : (s.hostRead a).cap = s.cap := rfl
@[simp] theorem State.hostRead_bbuf (a : LocAddr) : (s.hostRead a).bbuf = s.bbuf := rfl
@[simp] theorem State.hostRead_tbuf (a : LocAddr) : (s.hostRead a).tbuf = s.tbuf := rfl
@[simp] theorem State.hostRead_acc (a : LocAddr) : (s.hostRead a).acc = s.acc := rfl
@[simp] theorem State.hostRead_cnt (a : LocAddr) : (s.hostRead a).cnt = s.cnt := rfl
@[simp] theorem State.hostRead_draw (a : LocAddr) : (s.hostRead a).draw = s.draw := rfl
@[simp] theorem State.hostRead_reply (a : LocAddr) : (s.hostRead a).reply = some (s.memRead a) := rfl
@[simp] theorem State.hostRead_schedule (a : LocAddr) : (s.hostRead a).schedule = s.schedule := rfl

@[simp] theorem State.latchWord_cmd (v : Word) : (s.latchWord v).cmd = v := rfl
@[simp] theorem State.latchWord_status (v : Word) : (s.latchWord v).status = { busy := true, done := false, err := .none } := rfl
@[simp] theorem State.latchWord_blen (v : Word) : (s.latchWord v).blen = s.blen := rfl
@[simp] theorem State.latchWord_tlen (v : Word) : (s.latchWord v).tlen = s.tlen := rfl
@[simp] theorem State.latchWord_cap (v : Word) : (s.latchWord v).cap = s.cap := rfl
@[simp] theorem State.latchWord_bbuf (v : Word) : (s.latchWord v).bbuf = s.bbuf := rfl
@[simp] theorem State.latchWord_tbuf (v : Word) : (s.latchWord v).tbuf = s.tbuf := rfl
@[simp] theorem State.latchWord_acc (v : Word) : (s.latchWord v).acc = 0#12 := rfl
@[simp] theorem State.latchWord_cnt (v : Word) : (s.latchWord v).cnt = 0#4 := rfl
@[simp] theorem State.latchWord_draw (v : Word) : (s.latchWord v).draw = s.draw := rfl
@[simp] theorem State.latchWord_reply (v : Word) : (s.latchWord v).reply = s.reply := rfl
@[simp] theorem State.latchWord_schedule (v : Word) : (s.latchWord v).schedule = .engine :: s.schedule := rfl

@[simp] theorem State.raise_eq_finish (c : Cause) : s.raise c = s.finish c.err := rfl

@[simp] theorem State.withSchedule_bbufAt (ms : List Move) (i : Nat) :
    State.bbufAt { s with schedule := ms } i = s.bbufAt i := rfl
@[simp] theorem State.withSchedule_tbufAt (ms : List Move) (i : Nat) :
    State.tbufAt { s with schedule := ms } i = s.tbufAt i := rfl
@[simp] theorem State.withSchedule_bcap (ms : List Move) :
    State.bcap { s with schedule := ms } = s.bcap := rfl
@[simp] theorem State.withSchedule_tcap (ms : List Move) :
    State.tcap { s with schedule := ms } = s.tcap := rfl
@[simp] theorem State.withSchedule_byteOperand (ms : List Move) :
    State.byteOperand { s with schedule := ms } = s.byteOperand := rfl
@[simp] theorem State.withSchedule_textOperand (ms : List Move) :
    State.textOperand { s with schedule := ms } = s.textOperand := rfl

end Sys2Proof.Machine
end

