-- ==== Sys2Proof/Laws/Text.lean ====
section
/-!
SUPPORT. The alphabet, the groups of a byte sequence, and the checks of a text of known shape.
-/

namespace Sys2Proof.Machine

/-! ## The alphabet -/

@[simp] theorem symIndex_alpha (v : Group) : symIndex (alpha v) = .data v := by
  revert v; decide

theorem alpha_ne_padSymbol (v : Group) : alpha v ≠ padSymbol := by
  revert v; decide

theorem eq_alpha_of_symIndex : ∀ (c : Byte) (v : Group), symIndex c = .data v → c = alpha v := by
  intro c v h
  have : ∀ c : Byte, (match symIndex c with | .data v => c == alpha v | _ => true) = true := by
    decide
  have := this c
  rw [h] at this
  simpa using this

theorem symIndices_map_alpha (vs : List Group) : symIndices (vs.map alpha) = some vs := by
  induction vs with
  | nil => rfl
  | cons v vs ih => simp [symIndices, ih]

theorem eq_map_alpha_of_symIndices {d : List Byte} {vs : List Group}
    (h : symIndices d = some vs) : d = vs.map alpha := by
  induction d generalizing vs with
  | nil => simp only [symIndices, Option.some.injEq] at h; subst h; rfl
  | cons c cs ih =>
    simp only [symIndices] at h
    split at h
    · rename_i v hv
      obtain ⟨us, hus, rfl⟩ := Option.map_eq_some_iff.1 h
      rw [List.map_cons, ← ih hus, ← eq_alpha_of_symIndex c v hv]
    · cases h
    · cases h

/-! ## The groups of a byte sequence -/

theorem length_byteBits (b : List Byte) : (byteBits b).length = 8 * b.length :=
  length_flatMap_const _ length_msbBits b

theorem length_groupBits (vs : List Group) : (groupBits vs).length = 5 * vs.length :=
  length_flatMap_const _ length_msbBits vs

@[simp] theorem length_byteGroups (b : List Byte) : (byteGroups b).length = groupCount b.length := by
  simp [byteGroups]

@[simp] theorem length_groupBytes (vs : List Group) :
    (groupBytes vs).length = 5 * vs.length / 8 := by
  simp [groupBytes]

theorem le_groupCount (n : Nat) : 8 * n ≤ 5 * groupCount n := by
  unfold groupCount; omega

theorem groupCount_lt (n : Nat) : 5 * groupCount n < 8 * n + 5 := by
  unfold groupCount; omega

/-- The bits of the groups are the bits of the bytes and the zero fill (rules R112, R114). -/
theorem groupBits_byteGroups (b : List Byte) :
    groupBits (byteGroups b) =
      byteBits b ++ List.replicate (5 * groupCount b.length - 8 * b.length) false := by
  have hle := le_groupCount b.length
  have hlen : (byteBits b ++ List.replicate (5 * groupCount b.length - 8 * b.length) false).length
      = 5 * groupCount b.length := by
    rw [List.length_append, length_byteBits, List.length_replicate]; omega
  have hmem := length_of_mem_slices (w := 5) (n := groupCount b.length) hlen.ge
  have hid : ∀ L : List (List Bool), (∀ x ∈ L, x.length = 5) →
      L.map (fun x => msbBits (BitVec.ofNat 5 (bitsVal x))) = L := by
    intro L hL
    conv_rhs => rw [← List.map_id L]
    exact List.map_congr_left fun x hx => msbBits_ofNat_bitsVal x (hL x hx)
  unfold groupBits byteGroups
  rw [List.flatMap_map, List.flatMap_def, hid _ hmem, flatten_slices hlen]

/-- Bytes cut out of the bits of bytes, whatever follows, are the bytes. -/
theorem map_slices_byteBits (b : List Byte) (R : List Bool) :
    (slices 8 b.length (byteBits b ++ R)).map (fun x => BitVec.ofNat 8 (bitsVal x)) = b := by
  unfold byteBits
  rw [slices_flatMap _ length_msbBits, List.map_map]
  conv_rhs => rw [← List.map_id b]
  apply List.map_congr_left
  intro x _
  exact ofNat_bitsVal_msbBits x

theorem padTable_eq_padByResidue (n : Nat) : padTable (8 * n % 40) = padByResidue n := by
  have h : 8 * n % 40 = 8 * (n % 5) := by omega
  have h5 : n % 5 < 5 := Nat.mod_lt _ (by decide)
  unfold padByResidue
  rw [h]
  generalize n % 5 = m at h5
  interval_cases m <;> rfl

/-- The padding brings the length to a multiple of 8 (rules R116, R117). -/
theorem groupCount_add_padTable (n : Nat) :
    groupCount n + padTable (8 * n % 40) = 8 * ((n + 4) / 5) := by
  have h : 8 * n % 40 = 8 * (n % 5) := by omega
  have h5 : n % 5 < 5 := Nat.mod_lt _ (by decide)
  have hd := Nat.div_add_mod n 5
  rw [h]
  unfold groupCount
  generalize n % 5 = m at *
  interval_cases m <;> simp only [padTable] <;> omega

theorem length_b32Encode (b : List Byte) : (b32Encode b).length = 8 * ((b.length + 4) / 5) := by
  simp only [b32Encode, List.length_append, List.length_map, length_byteGroups,
    List.length_replicate, groupCount_add_padTable]

/-! ## The trailing run -/

theorem trailingPads_append_replicate (d : List Byte) (p : Nat) :
    trailingPads (d ++ List.replicate p padSymbol) = p + trailingPads d := by
  induction p with
  | zero => simp [trailingPads]
  | succ p ih =>
    have h : List.replicate (p + 1) padSymbol = List.replicate p padSymbol ++ [padSymbol] :=
      List.replicate_succ'
    rw [h, ← List.append_assoc]
    unfold trailingPads at ih ⊢
    rw [List.reverse_append]
    simp only [List.reverse_cons, List.reverse_nil, List.nil_append, List.singleton_append,
      List.takeWhile_cons, beq_self_eq_true, if_true, List.length_cons, ih]
    omega

theorem trailingPads_concat_of_ne (d : List Byte) {c : Byte} (h : c ≠ padSymbol) :
    trailingPads (d ++ [c]) = 0 := by
  simp [trailingPads, h]

theorem trailingPads_map_alpha (vs : List Group) : trailingPads (vs.map alpha) = 0 := by
  rcases List.eq_nil_or_concat vs with rfl | ⟨us, v, rfl⟩
  · rfl
  · rw [List.concat_eq_append, List.map_append]
    exact trailingPads_concat_of_ne _ (alpha_ne_padSymbol v)

/-- Every text is some symbols, the last of them not `=`, and then its trailing run (rule R132). -/
theorem eq_append_trailingPads (t : List Byte) :
    t = dataSymbols t ++ List.replicate (trailingPads t) padSymbol ∧
      trailingPads (dataSymbols t) = 0 ∧ trailingPads t ≤ t.length := by
  induction t using List.reverseRecOn with
  | nil => simp [dataSymbols, trailingPads]
  | append_singleton d c ih =>
    by_cases hc : c = padSymbol
    · subst hc
      have hp : trailingPads (d ++ [padSymbol]) = trailingPads d + 1 := by
        have := trailingPads_append_replicate d 1
        rw [Nat.add_comm] at this
        exact this
      obtain ⟨h1, h2, h3⟩ := ih
      have hd : dataSymbols (d ++ [padSymbol]) = dataSymbols d := by
        unfold dataSymbols
        rw [hp, List.length_append, List.length_singleton, Nat.add_sub_add_right,
          List.take_append_of_le_length (by omega)]
      refine ⟨?_, hd ▸ h2, by rw [hp, List.length_append, List.length_singleton]; omega⟩
      rw [hd, hp, List.replicate_succ', ← List.append_assoc, ← h1]
    · have hp := trailingPads_concat_of_ne d hc
      have hd : dataSymbols (d ++ [c]) = d ++ [c] := by
        unfold dataSymbols
        rw [hp, Nat.sub_zero, List.take_length]
      rw [hd, hp]
      simp

theorem length_dataSymbols (t : List Byte) :
    (dataSymbols t).length = t.length - trailingPads t := by
  unfold dataSymbols
  rw [List.length_take]
  omega

theorem dataSymbols_append_replicate (d : List Byte) (p : Nat) (h : trailingPads d = 0) :
    dataSymbols (d ++ List.replicate p padSymbol) = d := by
  unfold dataSymbols
  rw [trailingPads_append_replicate, h, List.length_append, List.length_replicate]
  simp

/-! ## The checks -/

/-- A text of data symbols and an allowed run passes every check, and its indices are the symbols'. -/
theorem validateText_shape (vs : List Group) {p : Nat} (h : p ∈ allowedPads) :
    validateText (vs.map alpha ++ List.replicate p padSymbol) = .ok vs := by
  have h0 := trailingPads_map_alpha vs
  have hp : trailingPads (vs.map alpha ++ List.replicate p padSymbol) = p := by
    rw [trailingPads_append_replicate, h0, Nat.add_zero]
  have hn : padSymbol ∉ vs.map alpha := by
    intro hm
    obtain ⟨v, _, hv⟩ := List.mem_map.1 hm
    exact alpha_ne_padSymbol v hv
  unfold validateText
  rw [hp, dataSymbols_append_replicate _ _ h0, if_neg (not_not.2 h), if_neg hn,
    symIndices_map_alpha]

/-- A text that passes every check has that shape. -/
theorem shape_of_validateText {t : List Byte} {vs : List Group} (h : validateText t = .ok vs) :
    t = vs.map alpha ++ List.replicate (trailingPads t) padSymbol ∧ trailingPads t ∈ allowedPads := by
  unfold validateText at h
  split at h
  · cases h
  · rename_i hp
    split at h
    · cases h
    · split at h
      · cases h
      · rename_i us hus
        cases h
        have hd := eq_map_alpha_of_symIndices hus
        exact ⟨hd ▸ (eq_append_trailingPads t).1, not_not.1 hp⟩

theorem length_of_validateText {t : List Byte} {vs : List Group} (h : validateText t = .ok vs) :
    vs.length = t.length - trailingPads t := by
  have h1 := congrArg List.length (shape_of_validateText h).1
  rw [List.length_append, List.length_map, List.length_replicate] at h1
  omega

/-- The only causes the checks give are the source's three (rule R180). -/
theorem cause_of_validateText {t : List Byte} {c : Cause} (h : validateText t = .error c) :
    c = .padCount ∨ c = .padPos ∨ c = .symbol := by
  unfold validateText at h
  split at h
  · cases h; exact .inl rfl
  · split at h
    · cases h; exact .inr (.inl rfl)
    · split at h
      · cases h; exact .inr (.inr rfl)
      · cases h

/-- The bit string of a byte sequence with a first byte. -/
theorem byteBits_cons (x : Byte) (b : List Byte) : byteBits (x :: b) = msbBits x ++ byteBits b := rfl

/-- Dropping whole bytes of a bit string. -/
theorem drop_byteBits_append (b : List Byte) (R : List Bool) (q : Nat) (h : q ≤ b.length) :
    (byteBits b ++ R).drop (8*q) = byteBits (b.drop q) ++ R := by
  induction q generalizing b with
  | zero => simp
  | succ q ih =>
    cases b with
    | nil => simp at h
    | cons x b =>
      rw [byteBits_cons, Nat.mul_succ, Nat.add_comm, ← List.drop_drop, List.append_assoc]
      have : (msbBits x ++ (byteBits b ++ R)).drop 8 = byteBits b ++ R := by
        exact List.drop_left' (length_msbBits x)
      rw [this, ih b (by simpa using h)]; rfl

/-- A data symbol of `Encode` is the symbol of its group. -/
theorem getElem?_b32Encode_data (b : List Byte) (i : Nat) (h : i < groupCount b.length) :
    (b32Encode b)[i]? = (byteGroups b)[i]?.map alpha := by
  unfold b32Encode
  rw [List.getElem?_append_left (by simpa using h), List.getElem?_map]

/-- The bit string of an index sequence with a first index. -/
theorem groupBits_cons (v : Group) (vs : List Group) : groupBits (v :: vs) = msbBits v ++ groupBits vs := rfl

/-- Dropping whole indices of a bit string. -/
theorem drop_groupBits (b : List Group) (q : Nat) (h : q ≤ b.length) :
    (groupBits b).drop (5*q) = groupBits (b.drop q) := by
  induction q generalizing b with
  | zero => simp
  | succ q ih =>
    cases b with
    | nil => simp at h
    | cons x b =>
      rw [groupBits_cons, Nat.mul_succ, Nat.add_comm, ← List.drop_drop, List.drop_left' (length_msbBits x), ih b (by simpa using h)]; rfl

/-- Two indices with one symbol are equal (rule R82). -/
theorem alpha_injective {u v : Group} (h : alpha u = alpha v) : u = v := by
  have := congrArg symIndex h; simpa using this

/-- A text without `=` fails the lookup exactly when some symbol has class none (rule R136). -/
theorem symIndices_eq_none_iff (d : List Byte) (hp : padSymbol ∉ d) :
    symIndices d = none ↔ ∃ c ∈ d, symIndex c = .none := by
  induction d with
  | nil => simp [symIndices]
  | cons c cs ih =>
    have h1 : padSymbol ∉ cs := fun h => hp (List.mem_cons_of_mem _ h)
    have h2 : c ≠ padSymbol := fun h => hp (by simp [h])
    simp only [symIndices]
    cases hc : symIndex c with
    | data v => simp [ih h1, hc]
    | pad =>
      have : ∀ c : Byte, symIndex c = .pad → c = padSymbol := by decide
      exact absurd (this c hc) h2
    | none => simp [hc]

/-- The data symbols of a text, by index (rule R131). -/
theorem mem_dataSymbols (t : List Byte) (c : Byte) :
    c ∈ dataSymbols t ↔ ∃ i, i < t.length - trailingPads t ∧ t[i]? = some c := by
  unfold dataSymbols
  rw [List.mem_iff_getElem?]
  constructor
  · rintro ⟨i, hi⟩
    rw [List.getElem?_take] at hi
    split at hi
    · exact ⟨i, ‹_›, hi⟩
    · cases hi
  · rintro ⟨i, h1, h2⟩
    exact ⟨i, by rw [List.getElem?_take, if_pos h1, h2]⟩

end Sys2Proof.Machine
end

