-- ==== Sys2Proof/Laws/Exec.lean ====
section
/-!
SUPPORT. What each shared operation and each command can do: the explicit next states, and what buffers read as after them.
-/

namespace Sys2Proof.Machine

/-! ## Operands -/

@[simp] theorem State.length_byteOperand (s : State) : s.byteOperand.length = s.blen.toNat := by
  simp [State.byteOperand]

@[simp] theorem State.length_textOperand (s : State) : s.textOperand.length = s.tlen.toNat := by
  simp [State.textOperand]

theorem State.getElem?_byteOperand (s : State) {i : Nat} (h : i < s.blen.toNat) :
    s.byteOperand[i]? = some (s.bbufAt i) := by
  simp [State.byteOperand, h]

theorem State.getElem?_textOperand (s : State) {i : Nat} (h : i < s.tlen.toNat) :
    s.textOperand[i]? = some (s.tbufAt i) := by
  simp [State.textOperand, h]

/-- Two states that read alike on the source bytes have the same operand. -/
theorem State.byteOperand_congr {s u : State} (hl : s.blen = u.blen)
    (h : ∀ i, i < s.blen.toNat → s.bbufAt i = u.bbufAt i) : s.byteOperand = u.byteOperand := by
  unfold State.byteOperand
  rw [← hl]
  exact List.map_congr_left fun i hi => h i (List.mem_range.1 hi)

theorem State.textOperand_congr {s u : State} (hl : s.tlen = u.tlen)
    (h : ∀ i, i < s.tlen.toNat → s.tbufAt i = u.tbufAt i) : s.textOperand = u.textOperand := by
  unfold State.textOperand
  rw [← hl]
  exact List.map_congr_left fun i hi => h i (List.mem_range.1 hi)

/-! ## Capacities -/

theorem State.bcap_lt (s : State) : s.bcap < 2 ^ 16 := by
  have := s.cap.isLt
  unfold State.bcap; omega

theorem State.tcap_lt (s : State) : s.tcap < 2 ^ 16 := by
  have := s.cap.isLt
  unfold State.tcap; omega

/-- A text encoded from bytes that fit fits (rule R116). -/
theorem State.length_b32Encode_le_tcap {s : State} (h : s.blen.toNat ≤ s.bcap) :
    (b32Encode s.byteOperand).length ≤ s.tcap := by
  rw [length_b32Encode, State.length_byteOperand]
  unfold State.bcap at h
  unfold State.tcap
  omega

/-- Bytes decoded from a text that fits fit (rule R141). -/
theorem State.length_groupBytes_le_bcap {s : State} {vs : List Group} (h : s.tlen.toNat ≤ s.tcap)
    (hv : validateText s.textOperand = .ok vs) : (groupBytes vs).length ≤ s.bcap := by
  have hl := length_of_validateText hv
  rw [State.length_textOperand] at hl
  rw [length_groupBytes]
  unfold State.tcap at h
  unfold State.bcap
  omega

/-! ## What a buffer location reads as after an update -/

theorem State.setBbuf_bbufAt (s : State) (i j : Nat) (v : Byte) :
    (s.setBbuf i v).bbufAt j = if j = i then v else s.bbufAt j := by
  unfold State.bbufAt
  rw [State.setBbuf_bbuf, State.setBbuf_draw, Memory.read_write]
  split <;> rfl

theorem State.setTbuf_tbufAt (s : State) (i j : Nat) (v : Byte) :
    (s.setTbuf i v).tbufAt j = if j = i then v else s.tbufAt j := by
  unfold State.tbufAt
  rw [State.setTbuf_tbuf, State.setTbuf_draw, Memory.read_write]
  split <;> rfl

theorem State.writeText_tbufAt (s : State) (t : List Byte) (i : Nat) :
    (s.writeText t).tbufAt i = t.getD i (s.tbufAt i) := by
  unfold State.tbufAt
  rw [State.writeText_tbuf, State.writeText_draw, Memory.read_writeRange]
  by_cases h : i < t.length
  · simp [h]
  · simp [h, List.getD]

theorem State.writeBytes_bbufAt (s : State) (o : List Byte) (i : Nat) :
    (s.writeBytes o).bbufAt i = o.getD i (s.bbufAt i) := by
  unfold State.bbufAt
  rw [State.writeBytes_bbuf, State.writeBytes_draw, Memory.read_writeRange]
  by_cases h : i < o.length
  · simp [h]
  · simp [h, List.getD]

/-! ## The commands -/

/-- The state a successful `ENC` leaves. -/
def encDone (s : State) : State :=
  ((s.writeText (b32Encode s.byteOperand)).setRepack
    (repackBytes repackStart s.byteOperand).2.acc
    (repackBytes repackStart s.byteOperand).2.cnt).finish .none

/-- The state a successful `DEC` of the indices leaves. -/
def decDone (vs : List Group) (s : State) : State :=
  ((s.writeBytes (groupBytes vs)).setRepack
    (repackGroups repackStart vs).2.acc (repackGroups repackStart vs).2.cnt).finish .none

theorem exec_enc_of_fits {s : State} (h : s.blen.toNat ≤ s.bcap) :
    exec .enc s = .next (encDone s) :=
  if_neg (Nat.not_lt.2 h)

theorem exec_enc_of_long {s : State} (h : s.bcap < s.blen.toNat) :
    exec .enc s = .next (s.finish .length) :=
  if_pos h

theorem exec_dec_of_long {s : State} (h : s.tcap < s.tlen.toNat) :
    exec .dec s = .next (s.finish .length) :=
  if_pos h

theorem exec_dec_of_ok {s : State} {vs : List Group} (h : s.tlen.toNat ≤ s.tcap)
    (hv : validateText s.textOperand = .ok vs) : exec .dec s = .next (decDone vs s) := by
  show execDec s = _
  unfold execDec
  rw [if_neg (Nat.not_lt.2 h), hv]
  rfl

theorem exec_dec_of_error {s : State} {c : Cause} (h : s.tlen.toNat ≤ s.tcap)
    (hv : validateText s.textOperand = .error c) : exec .dec s = .next (s.finish c.err) := by
  show execDec s = _
  unfold execDec
  rw [if_neg (Nat.not_lt.2 h), hv]
  rfl

/-- Everything `ENC` can do. -/
theorem exec_enc_cases (s : State) :
    (s.bcap < s.blen.toNat ∧ exec .enc s = .next (s.finish .length)) ∨
    (s.blen.toNat ≤ s.bcap ∧ exec .enc s = .next (encDone s)) :=
  (Nat.lt_or_ge s.bcap s.blen.toNat).imp (fun h => ⟨h, exec_enc_of_long h⟩)
    fun h => ⟨h, exec_enc_of_fits h⟩

/-- Everything `DEC` can do. -/
theorem exec_dec_cases (s : State) :
    (s.tcap < s.tlen.toNat ∧ exec .dec s = .next (s.finish .length)) ∨
    (s.tlen.toNat ≤ s.tcap ∧ ∃ c, validateText s.textOperand = .error c ∧
      exec .dec s = .next (s.finish c.err)) ∨
    (s.tlen.toNat ≤ s.tcap ∧ ∃ vs, validateText s.textOperand = .ok vs ∧
      exec .dec s = .next (decDone vs s)) := by
  rcases Nat.lt_or_ge s.tcap s.tlen.toNat with h | h
  · exact .inl ⟨h, exec_dec_of_long h⟩
  · cases hv : validateText s.textOperand with
    | error c => exact .inr (.inl ⟨h, c, rfl, exec_dec_of_error h hv⟩)
    | ok vs => exact .inr (.inr ⟨h, vs, rfl, exec_dec_of_ok h hv⟩)

theorem b32Decode_of_ok {t : List Byte} {vs : List Group} (h : validateText t = .ok vs) :
    b32Decode t = .ok (groupBytes vs) := by
  unfold b32Decode; rw [h]

theorem b32Decode_of_error {t : List Byte} {c : Cause} (h : validateText t = .error c) :
    b32Decode t = .fail c := by
  unfold b32Decode; rw [h]

/-! ## The completion step -/

/-- Everything the completion step can do. -/
theorem State.complete_cases (s : State) :
    (∃ why, decode s.cmd = .reserved why ∧ s.complete = .next (s.finish .badCmd)) ∨
    (∃ i, decode s.cmd = .command i ∧ s.complete = exec i s) := by
  unfold State.complete
  cases hd : decode s.cmd with
  | command i => exact .inr ⟨i, rfl, rfl⟩
  | reserved why => exact .inl ⟨why, rfl, rfl⟩

/-- Everything the completion step (rule R163) does whatever the command. -/
theorem State.complete_spec (s : State) :
    ∃ t, s.complete = .next t ∧ t.status.busy = false ∧ t.status.done = true ∧ t.cmd = s.cmd ∧
      t.schedule = s.schedule ∧ t.cap = s.cap ∧
      (t.status.err ≠ .none → t = { s with status := t.status }) := by
  rcases s.complete_cases with ⟨why, h1, h2⟩ | ⟨i, h1, h2⟩
  · exact ⟨_, h2, rfl, rfl, rfl, rfl, rfl, fun _ => rfl⟩
  · rw [h2]
    cases i
    · rcases exec_enc_cases s with ⟨_, h⟩ | ⟨_, h⟩
      · exact ⟨_, h, rfl, rfl, rfl, rfl, rfl, fun _ => rfl⟩
      · exact ⟨_, h, rfl, rfl, rfl, rfl, rfl, fun h => absurd rfl h⟩
    · rcases exec_dec_cases s with ⟨_, h⟩ | ⟨_, c, hv, h⟩ | ⟨_, vs, hv, h⟩
      · exact ⟨_, h, rfl, rfl, rfl, rfl, rfl, fun _ => rfl⟩
      · exact ⟨_, h, rfl, rfl, rfl, rfl, rfl, fun _ => rfl⟩
      · exact ⟨_, h, rfl, rfl, rfl, rfl, rfl, fun h => absurd rfl h⟩

/-- The length `ENC` writes is not truncated (rule R116). -/
theorem encDone_tlen_toNat (s : State) (h : s.blen.toNat ≤ s.bcap) :
    (encDone s).tlen.toNat = (b32Encode s.byteOperand).length := by
  have h1 := State.length_b32Encode_le_tcap h
  have h2 := s.tcap_lt
  show (BitVec.ofNat 16 _).toNat = _
  rw [BitVec.toNat_ofNat, Nat.mod_eq_of_lt (by omega)]

/-- The length `DEC` writes is not truncated (rule R141). -/
theorem decDone_blen_toNat (s : State) (vs : List Group) (h : s.tlen.toNat ≤ s.tcap)
    (hv : validateText s.textOperand = .ok vs) : (decDone vs s).blen.toNat = (groupBytes vs).length := by
  have h1 := State.length_groupBytes_le_bcap h hv
  have h2 := s.bcap_lt
  show (BitVec.ofNat 16 _).toNat = _
  rw [BitVec.toNat_ofNat, Nat.mod_eq_of_lt (by omega)]

end Sys2Proof.Machine
end

