-- ==== Sys2Proof/Laws/Step.lean ====
section
/-!
SUPPORT. What a step can do, and what a location address names.
-/

namespace Sys2Proof.Machine

/-! ## The step -/

theorem step_of_empty {s : State} (h : s.schedule = []) : step s = s.engineTurn := by
  unfold step; rw [h]

theorem step_of_move {s : State} {m : Move} {rest : List Move} (h : s.schedule = m :: rest) :
    step s = State.perform m { s with schedule := rest } := by
  unfold step; rw [h]

theorem State.engineTurn_busy {s : State} (h : s.status.busy = true) :
    s.engineTurn = s.complete := by
  unfold State.engineTurn; rw [if_pos h]

theorem State.engineTurn_idle {s : State} (h : s.status.busy = false) :
    s.engineTurn = .next s := by
  unfold State.engineTurn; rw [if_neg (by rw [h]; decide)]

theorem State.memWrite_busy {s : State} (h : s.status.busy = true) (a : LocAddr) (v : Word) :
    s.memWrite a v = s := by
  unfold State.memWrite; rw [if_pos h]

theorem State.memWrite_idle {s : State} (h : s.status.busy = false) (a : LocAddr) (v : Word) :
    s.memWrite a v = s.idleWrite a v := by
  unfold State.memWrite; rw [if_neg (by rw [h]; decide)]

/-- Everything a step can be: the engine's turn, a host read, a host write dropped or performed, or a
reset. -/
theorem step_cases (s : State) :
    (∃ rest, (s.schedule = .engine :: rest ∨ (s.schedule = [] ∧ rest = [])) ∧
      step s = State.engineTurn { s with schedule := rest }) ∨
    (∃ a rest, s.schedule = .host (.read a) :: rest ∧
      step s = .next (State.hostRead a { s with schedule := rest })) ∨
    (∃ a v rest, s.schedule = .host (.write a v) :: rest ∧ s.status.busy = true ∧
      step s = .next { s with schedule := rest }) ∨
    (∃ a v rest, s.schedule = .host (.write a v) :: rest ∧ s.status.busy = false ∧
      step s = .next (State.idleWrite a v { s with schedule := rest })) ∨
    (∃ rest, s.schedule = .reset :: rest ∧
      step s = .next (State.resetEvent { s with schedule := rest })) := by
  rcases hs : s.schedule with _ | ⟨m, rest⟩
  · refine .inl ⟨[], .inr ⟨rfl, rfl⟩, ?_⟩
    rw [step_of_empty hs, ← hs]
  · rw [step_of_move hs]
    rcases m with (a | ⟨a, v⟩) | _ | _
    · exact .inr (.inl ⟨a, rest, rfl, rfl⟩)
    · cases hb : s.status.busy with
      | true =>
        refine .inr (.inr (.inl ⟨a, v, rest, rfl, rfl, ?_⟩))
        exact congrArg _ (State.memWrite_busy (s := { s with schedule := rest }) hb a v)
      | false =>
        refine .inr (.inr (.inr (.inl ⟨a, v, rest, rfl, rfl, ?_⟩)))
        exact congrArg _ (State.memWrite_idle (s := { s with schedule := rest }) hb a v)
    · exact .inl ⟨rest, .inl rfl, rfl⟩
    · exact .inr (.inr (.inr (.inr ⟨rest, rfl, rfl⟩)))

/-- A run of one step more, for any machine. -/
theorem core_run_succ (M : Host.Core) {s t : M.State} (h : M.step s = .next t) (k : Nat) :
    M.run (k + 1) s = M.run k t := by
  simp only [Host.Core.run, h]

/-- A run of one step more. -/
theorem run_succ_of_step {s t : State} (h : step s = .next t) (k : Nat) :
    Sys2Proof.core.run (k + 1) s = Sys2Proof.core.run k t :=
  core_run_succ Sys2Proof.core h k

/-! ## Location addresses (rules R52, R95) -/

theorem locRegion_toNat (a : LocAddr) : (locRegion a).toNat = a.toNat / 65536 := by
  have := a.isLt
  simp only [locRegion, BitVec.extractLsb'_toNat, Nat.shiftRight_eq_div_pow]
  omega

theorem locIndex_toNat (a : LocAddr) : (locIndex a).toNat = a.toNat % 65536 := by
  simp only [locIndex, BitVec.extractLsb'_toNat, Nat.shiftRight_eq_div_pow]
  omega

/-- What an address names, by its number. -/
theorem locate_eq (q : Quanta) (a : LocAddr) :
    locate q a =
      if a.toNat < 0x10000 then locateRegister a.toNat
      else if a.toNat < 0x20000 then
        if a.toNat - 0x10000 < 5 * q.toNat then .bbuf (a.toNat - 0x10000) else .unmapped
      else if a.toNat < 0x30000 then
        if a.toNat - 0x20000 < 8 * q.toNat then .tbuf (a.toNat - 0x20000) else .unmapped
      else .unmapped := by
  have ha := a.isLt
  have hr := locRegion_toNat a
  have hi := locIndex_toNat a
  have key : ∀ n : BitVec 2, locRegion a = n ↔ a.toNat / 65536 = n.toNat := by
    intro n
    rw [← hr]
    exact ⟨fun h => h ▸ rfl, BitVec.eq_of_toNat_eq⟩
  unfold locate
  simp only [key, hi]
  by_cases h0 : a.toNat < 0x10000
  · rw [if_pos (by simp; omega), if_pos h0, Nat.mod_eq_of_lt h0]
  · rw [if_neg (by simp; omega), if_neg h0]
    by_cases h1 : a.toNat < 0x20000
    · rw [if_pos (by simp; omega), if_pos h1, show a.toNat % 65536 = a.toNat - 0x10000 by omega]
    · rw [if_neg (by simp; omega), if_neg h1]
      by_cases h2 : a.toNat < 0x30000
      · rw [if_pos (by simp; omega), if_pos h2, show a.toNat % 65536 = a.toNat - 0x20000 by omega]
      · rw [if_neg (by simp; omega), if_neg h2]

theorem locateRegister_unmapped {i : Nat} (h : 5 ≤ i) : locateRegister i = .unmapped := by
  unfold locateRegister
  split <;> first | rfl | omega

theorem locateRegister_eq_cmd {i : Nat} (h : locateRegister i = .cmd) : i = 0 := by
  unfold locateRegister at h
  split at h <;> first | rfl | cases h

/-- Only location `0x00000` is `CMD`. -/
theorem locate_eq_cmd {q : Quanta} {a : LocAddr} (h : locate q a = .cmd) : a = 0x00000#18 := by
  rw [locate_eq] at h
  split at h
  · exact BitVec.eq_of_toNat_eq (locateRegister_eq_cmd h)
  · split at h
    · split at h <;> cases h
    · split at h
      · split at h <;> cases h
      · cases h

theorem locate_bbuf {q : Quanta} {a : LocAddr} {i : Nat} (hi : i < 5 * q.toNat)
    (ha : a.toNat = 0x10000 + i) : locate q a = .bbuf i := by
  have hq := q.isLt
  rw [locate_eq, if_neg (by omega), if_pos (by omega), show a.toNat - 0x10000 = i by omega,
    if_pos hi]

theorem locate_tbuf {q : Quanta} {a : LocAddr} {i : Nat} (hi : i < 8 * q.toNat)
    (ha : a.toNat = 0x20000 + i) : locate q a = .tbuf i := by
  have hq := q.isLt
  rw [locate_eq, if_neg (by omega), if_neg (by omega), if_pos (by omega),
    show a.toNat - 0x20000 = i by omega, if_pos hi]

theorem locate_reg_unmapped {q : Quanta} {a : LocAddr} (h1 : 5 ≤ a.toNat) (h2 : a.toNat < 0x10000) :
    locate q a = .unmapped := by
  rw [locate_eq, if_pos h2, locateRegister_unmapped h1]

theorem locate_bbuf_unmapped {q : Quanta} {a : LocAddr} (h1 : 0x10000 + 5 * q.toNat ≤ a.toNat)
    (h2 : a.toNat < 0x20000) : locate q a = .unmapped := by
  rw [locate_eq, if_neg (by omega), if_pos h2, if_neg (by omega)]

theorem locate_tbuf_unmapped {q : Quanta} {a : LocAddr} (h : 0x20000 + 8 * q.toNat ≤ a.toNat) :
    locate q a = .unmapped := by
  rw [locate_eq, if_neg (by omega), if_neg (by omega)]
  split
  · rw [if_neg (by omega)]
  · rfl

/-- An index that an address names exists (rule R52). -/
theorem locate_in_map {q : Quanta} {a : LocAddr} {i : Nat} :
    (locate q a = .bbuf i → i < 5 * q.toNat) ∧ (locate q a = .tbuf i → i < 8 * q.toNat) := by
  have hreg : ∀ j, locateRegister j ≠ .bbuf i ∧ locateRegister j ≠ .tbuf i := by
    intro j
    unfold locateRegister
    split <;> exact ⟨nofun, nofun⟩
  rw [locate_eq]
  refine ⟨fun h => ?_, fun h => ?_⟩
  · split at h
    · exact absurd h (hreg _).1
    · split at h
      · split at h
        · rename_i hlt
          exact Location.bbuf.inj h ▸ hlt
        · cases h
      · split at h
        · split at h <;> cases h
        · cases h
  · split at h
    · exact absurd h (hreg _).2
    · split at h
      · split at h <;> cases h
      · split at h
        · split at h
          · rename_i hlt
            exact Location.tbuf.inj h ▸ hlt
          · cases h
        · cases h

/-- What an idle write can do: nothing, start a command, or store in one register or one location. -/
theorem State.idleWrite_cases (s : State) (a : LocAddr) (v : Word) :
    s.idleWrite a v = s ∨
    (a = 0x00000#18 ∧ s.idleWrite a v = s.acceptCommand v) ∨
    s.idleWrite a v = s.setBlen (v.setWidth 16) ∨
    s.idleWrite a v = s.setTlen (v.setWidth 16) ∨
    (∃ i, i < s.bcap ∧ s.idleWrite a v = s.setBbuf i (v.setWidth 8)) ∨
    (∃ i, i < s.tcap ∧ s.idleWrite a v = s.setTbuf i (v.setWidth 8)) := by
  unfold State.idleWrite
  cases h : locate s.cap a with
  | cmd => exact .inr (.inl ⟨locate_eq_cmd h, rfl⟩)
  | status => exact .inl rfl
  | blen => exact .inr (.inr (.inl rfl))
  | tlen => exact .inr (.inr (.inr (.inl rfl)))
  | cap => exact .inl rfl
  | bbuf i => exact .inr (.inr (.inr (.inr (.inl ⟨i, locate_in_map.1 h, rfl⟩))))
  | tbuf i => exact .inr (.inr (.inr (.inr (.inr ⟨i, locate_in_map.2 h, rfl⟩))))
  | unmapped => exact .inl rfl

/-- The engine's turn always answers a next state, and leaves the block idle (rule R163). -/
theorem State.engineTurn_spec (s : State) :
    ∃ t, s.engineTurn = .next t ∧ t.schedule = s.schedule ∧ t.status.busy = false := by
  cases hb : s.status.busy
  · exact ⟨s, State.engineTurn_idle hb, rfl, hb⟩
  · rw [State.engineTurn_busy hb]
    obtain ⟨t, h1, h2, h3, h4, h5, _⟩ := State.complete_spec s
    exact ⟨t, h1, h5, h2⟩

/-- A step uses up one move of the schedule. -/
theorem step_schedule (s t : State) (h : step s = .next t) : t.schedule = s.schedule.tail := by
  rcases step_cases s with ⟨rest, hs, h'⟩ | ⟨a, rest, hs, h'⟩ | ⟨a, v, rest, hs, _, h'⟩ | ⟨a, v, rest, hs, hb', h'⟩ | ⟨rest, hs, h'⟩ <;> rw [h] at h'
  · obtain ⟨u, hu, h1, _⟩ := State.engineTurn_spec { s with schedule := rest }
    rw [hu] at h'; cases h'
    rw [h1]
    rcases hs with hs | ⟨hs, rfl⟩ <;> rw [hs] <;> rfl
  · cases h'; rw [hs]; rfl
  · cases h'; rw [hs]; rfl
  · cases h'; rw [hs]
    rcases State.idleWrite_cases { s with schedule := rest } a v with h | ⟨rfl, h⟩ | h | h | ⟨i, _, h⟩ | ⟨i, _, h⟩ <;> rw [h] <;> rfl
  · cases h'; rw [hs]; rfl

end Sys2Proof.Machine
end

