-- ==== Sys2Proof/Laws/HostCall.lean ====
section
/-!
SUPPORT. What a host's moves, its polls and its reads of a result do.
-/

namespace Sys2Proof.Machine

@[simp] theorem andThen_next {α β : Type} (a : α) (f : α → Host.Outcome β Fault Refusal) :
    andThen (.next a) f = f a := rfl

/-- Making a move is performing it, with the schedule as it was. -/
theorem State.doMove_eq (m : Move) (s : State) : s.doMove m = State.perform m s := rfl

theorem State.doMoves_cons (m : Move) (ms : List Move) (s : State) :
    State.doMoves (m :: ms) s = andThen (s.doMove m) (State.doMoves ms) := rfl

@[simp] theorem State.doMove_read (a : LocAddr) (s : State) :
    s.doMove (lineRD a) = .next (s.hostRead a) := rfl

/-- A write made while idle (rule R57). -/
theorem State.doMove_write_idle {s : State} (h : s.status.busy = false) (a : LocAddr) (v : Word) :
    s.doMove (lineWR a v) = .next (s.idleWrite a v) :=
  congrArg _ (State.memWrite_idle h a v)

@[simp] theorem State.hostRead_answer (a : LocAddr) (s : State) : (s.hostRead a).answer = s.memRead a := rfl

/-- A read of one location sees the block, not the host's earlier answers. -/
@[simp] theorem State.hostRead_memRead (a c : LocAddr) (s : State) :
    (s.hostRead a).memRead c = s.memRead c := rfl

/-- Bit 0 of a status word is `BUSY` (rule R89). -/
theorem Status.toWord_busy (st : Status) : st.toWord.getLsbD 0 = st.busy := by
  obtain ⟨b, d, e⟩ := st
  cases b <;> cases d <;> cases e <;> decide

/-- Reading consecutive locations gives what each of them reads as, and changes the reply only. -/
theorem State.readFrom_spec (loc : Nat → LocAddr) (n : Nat) :
    ∀ (i : Nat) (s : State), ∃ t, State.readFrom loc i n s =
      .next ((List.range' i n).map (fun j => (s.memRead (loc j)).setWidth 8), t) ∧
      t = { s with reply := t.reply } := by
  induction n with
  | zero => exact fun i s => ⟨s, rfl, rfl⟩
  | succ n ih =>
    intro i s
    obtain ⟨t, h, ht⟩ := ih (i + 1) (s.hostRead (loc i))
    exact ⟨t, by simp only [State.readFrom, State.doMove_read, andThen_next, h]; rfl, ht⟩

/-- Polling a busy block, whatever the delay: the engine's one turn, then one read that says idle. -/
theorem State.poll_of_busy (k : Nat) : ∀ (s : State), s.status.busy = true →
    ∃ r, s.poll k = andThen ({ s with reply := r } : State).complete
      fun t => .next (t.hostRead locSTATUS) := by
  induction k with
  | zero =>
    intro s h
    refine ⟨s.reply, ?_⟩
    show andThen (s.doMove .engine) _ = _
    rw [State.doMove_eq]
    show andThen s.engineTurn _ = _
    rw [State.engineTurn_busy h]
    rfl
  | succ k ih =>
    intro s h
    obtain ⟨r, hr⟩ := ih (s.hostRead locSTATUS) h
    refine ⟨r, ?_⟩
    have hb : (s.hostRead locSTATUS).answer.getLsbD 0 = true := (Status.toWord_busy s.status).trans h
    show andThen (s.doMove (lineRD locSTATUS)) _ = _
    rw [State.doMove_read, andThen_next, if_pos hb, hr]
    rfl

/-! ## The location names (rule R93) -/

theorem locBBUF_toNat {i : Nat} (h : i < 0x10000) : (locBBUF i).toNat = 0x10000 + i := by
  unfold locBBUF
  rw [BitVec.toNat_add, BitVec.toNat_ofNat]
  show (65536 + i % 262144) % 262144 = _
  omega

theorem locTBUF_toNat {i : Nat} (h : i < 0x10000) : (locTBUF i).toNat = 0x20000 + i := by
  unfold locTBUF
  rw [BitVec.toNat_add, BitVec.toNat_ofNat]
  show (131072 + i % 262144) % 262144 = _
  omega

/-- An idle write at a name of `BBUF` stores inside the capacity and is ignored above it (rule R57). -/
theorem State.idleWrite_locBBUF (s : State) {i : Nat} (h : i < 0x10000) (v : Word) :
    s.idleWrite (locBBUF i) v = if i < s.bcap then s.setBbuf i (v.setWidth 8) else s := by
  have ha := locBBUF_toNat h
  unfold State.idleWrite
  by_cases hi : i < s.bcap
  · rw [locate_bbuf hi ha, if_pos hi]
  · rw [locate_bbuf_unmapped (by unfold State.bcap at hi; omega) (by omega), if_neg hi]

/-- An idle write at a name of `TBUF` stores inside the capacity and is ignored above it (rule R57). -/
theorem State.idleWrite_locTBUF (s : State) {i : Nat} (h : i < 0x10000) (v : Word) :
    s.idleWrite (locTBUF i) v = if i < s.tcap then s.setTbuf i (v.setWidth 8) else s := by
  have ha := locTBUF_toNat h
  unfold State.idleWrite
  by_cases hi : i < s.tcap
  · rw [locate_tbuf hi ha, if_pos hi]
  · rw [locate_tbuf_unmapped (by unfold State.tcap at hi; omega), if_neg hi]

/-- A byte widened for the port and narrowed again (rules R56, R57). -/
theorem setWidth_8_32 (b : Byte) : (b.setWidth 32).setWidth 8 = b := by
  rw [BitVec.setWidth_setWidth_of_le _ (by decide), BitVec.setWidth_eq]

/-- The moves of `writesFrom`: one write for each byte, at its own location. -/
theorem mem_writesFrom (loc : Nat → LocAddr) (bs : List Byte) (i : Nat) (m : Move) :
    m ∈ writesFrom loc i bs ↔
      ∃ j b, bs[j]? = some b ∧ m = lineWR (loc (i + j)) (b.setWidth 32) := by
  induction bs generalizing i with
  | nil => simp [writesFrom]
  | cons b bs ih =>
    simp only [writesFrom, List.mem_cons, ih]
    constructor
    · rintro (h | ⟨j, c, hc, h⟩)
      · exact ⟨0, b, rfl, h⟩
      · exact ⟨j + 1, c, hc, by rw [h, Nat.add_assoc, Nat.add_comm 1 j]⟩
    · rintro ⟨j, c, hc, h⟩
      cases j with
      | zero => cases hc; exact .inl h
      | succ j => exact .inr ⟨j, c, hc, by rw [h, Nat.add_assoc, Nat.add_comm 1 j]⟩

/-! ## A buffer with its length register, as the port shows it -/

/-- What the port does at the locations of a buffer and of its length register: writes while idle, and reads. -/
structure BufferPort (loc : Nat → LocAddr) (lenLoc : LocAddr) (at' : State → Nat → Byte)
    (len : State → Len) (cap : Quanta → Nat) : Prop where
  locInj   : ∀ i j, i < 65536 → j < 65536 → loc i = loc j → i = j
  locNeLen : ∀ i, i < 65536 → loc i ≠ lenLoc
  capLt    : ∀ q, cap q < 65536
  writeLoc : ∀ (s : State) i v, i < 65536 →
    (s.idleWrite (loc i) v).status = s.status ∧ (s.idleWrite (loc i) v).cap = s.cap ∧
    (s.idleWrite (loc i) v).schedule = s.schedule ∧ len (s.idleWrite (loc i) v) = len s ∧
    ∀ j, j < cap s.cap → at' (s.idleWrite (loc i) v) j = if j = i then v.setWidth 8 else at' s j
  writeLen : ∀ (s : State) v,
    (s.idleWrite lenLoc v).status = s.status ∧ (s.idleWrite lenLoc v).cap = s.cap ∧
    (s.idleWrite lenLoc v).schedule = s.schedule ∧ len (s.idleWrite lenLoc v) = v.setWidth 16 ∧
    ∀ j, at' (s.idleWrite lenLoc v) j = at' s j
  readLoc  : ∀ (s : State) i, i < cap s.cap → s.memRead (loc i) = (at' s i).setWidth 32
  readLen  : ∀ s : State, s.memRead lenLoc = (len s).setWidth 32

theorem bbufPort : BufferPort locBBUF locBLEN State.bbufAt State.blen (fun q => 5 * q.toNat) where
  locInj i j hi hj h := by
    have := congrArg BitVec.toNat h
    rw [locBBUF_toNat hi, locBBUF_toNat hj] at this
    omega
  locNeLen i hi h := by
    have h := congrArg BitVec.toNat h
    rw [locBBUF_toNat hi] at h
    have : 65536 + i = 2 := h
    omega
  capLt q := by have := q.isLt; show 5 * q.toNat < _; omega
  writeLoc s i v hi := by
    rw [State.idleWrite_locBBUF s hi]
    split
    · exact ⟨rfl, rfl, rfl, rfl, fun j _ => State.setBbuf_bbufAt s i j _⟩
    · exact ⟨rfl, rfl, rfl, rfl, fun j hj => by
        rw [if_neg]; rintro rfl; contradiction⟩
  writeLen s v := ⟨rfl, rfl, rfl, rfl, fun _ => rfl⟩
  readLoc s i hi := by
    have hq := s.cap.isLt
    unfold State.memRead
    rw [locate_bbuf hi (locBBUF_toNat (by have hi : i < 5 * s.cap.toNat := hi; omega))]
  readLen _ := rfl

theorem tbufPort : BufferPort locTBUF locTLEN State.tbufAt State.tlen (fun q => 8 * q.toNat) where
  locInj i j hi hj h := by
    have := congrArg BitVec.toNat h
    rw [locTBUF_toNat hi, locTBUF_toNat hj] at this
    omega
  locNeLen i hi h := by
    have h := congrArg BitVec.toNat h
    rw [locTBUF_toNat hi] at h
    have : 131072 + i = 3 := h
    omega
  capLt q := by have := q.isLt; show 8 * q.toNat < _; omega
  writeLoc s i v hi := by
    rw [State.idleWrite_locTBUF s hi]
    split
    · exact ⟨rfl, rfl, rfl, rfl, fun j _ => State.setTbuf_tbufAt s i j _⟩
    · exact ⟨rfl, rfl, rfl, rfl, fun j hj => by
        rw [if_neg]; rintro rfl; contradiction⟩
  writeLen s v := ⟨rfl, rfl, rfl, rfl, fun _ => rfl⟩
  readLoc s i hi := by
    have hq := s.cap.isLt
    unfold State.memRead
    rw [locate_tbuf hi (locTBUF_toNat (by have hi : i < 8 * s.cap.toNat := hi; omega))]
  readLen _ := rfl

section
variable {loc : Nat → LocAddr} {lenLoc : LocAddr} {at' : State → Nat → Byte} {len : State → Len}
  {cap : Quanta → Nat}

/-- Operand writes made while idle, in any order and any number of times: a location or the length register
that some write names holds the operand's value, and one that held it already keeps it. -/
theorem BufferPort.doMoves_operand (P : BufferPort loc lenLoc at' len cap) (b : List Byte)
    (hb : b.length < 65536) (ws : List Move) : ∀ s : State, s.status.busy = false →
    (∀ m ∈ ws, m ∈ writesFrom loc 0 b ++ [lineWR lenLoc (BitVec.ofNat 32 b.length)]) →
    ∃ t, s.doMoves ws = .next t ∧ t.status = s.status ∧ t.cap = s.cap ∧ t.schedule = s.schedule ∧
      (lineWR lenLoc (BitVec.ofNat 32 b.length) ∈ ws ∨ (len s).toNat = b.length →
        (len t).toNat = b.length) ∧
      (∀ i c, i < cap s.cap → b[i]? = some c →
        lineWR (loc i) (c.setWidth 32) ∈ ws ∨ at' s i = c → at' t i = c) := by
  induction ws with
  | nil => exact fun s _ _ => ⟨s, rfl, rfl, rfl, rfl, by simp, by simp⟩
  | cons m ms ih =>
    intro s hs hm
    have hm1 := hm m (by simp)
    rw [List.mem_append, mem_writesFrom, List.mem_singleton] at hm1
    have lt_of : ∀ {i c}, b[i]? = some c → i < 65536 := fun h => by
      have := (List.getElem?_eq_some_iff.1 h).1; omega
    rw [State.doMoves_cons]
    rcases hm1 with ⟨j, d, hj, rfl⟩ | rfl
    · rw [Nat.zero_add] at *
      rw [State.doMove_write_idle hs, andThen_next]
      obtain ⟨w1, w2, w3, w4, w5⟩ := P.writeLoc s j (d.setWidth 32) (lt_of hj)
      obtain ⟨t, g1, g2, g3, g4, g5, g6⟩ :=
        ih (s.idleWrite (loc j) (d.setWidth 32)) (by rw [w1]; exact hs) (fun m h => hm m (by simp [h]))
      rw [w4] at g5
      rw [w2] at g6
      refine ⟨t, g1, g2.trans w1, g3.trans w2, g4.trans w3, fun h => g5 ?_, fun i c hi hc h => ?_⟩
      · refine h.imp_left fun h => (List.mem_cons.1 h).resolve_left fun h => ?_
        exact P.locNeLen j (lt_of hj) (Access.write.inj (Move.host.inj h)).1.symm
      · by_cases hij : i = j
        · subst hij
          rw [hj] at hc
          cases hc
          exact g6 i d hi hj (.inr (by rw [w5 i hi, if_pos rfl, setWidth_8_32]))
        · refine g6 i c hi hc (h.imp (fun h => (List.mem_cons.1 h).resolve_left fun h => hij ?_) fun h => ?_)
          · exact P.locInj i j (lt_of hc) (lt_of hj) (Access.write.inj (Move.host.inj h)).1
          · rw [w5 i hi, if_neg hij]; exact h
    · rw [State.doMove_write_idle hs, andThen_next]
      obtain ⟨w1, w2, w3, w4, w5⟩ := P.writeLen s (BitVec.ofNat 32 b.length)
      obtain ⟨t, g1, g2, g3, g4, g5, g6⟩ :=
        ih (s.idleWrite lenLoc (BitVec.ofNat 32 b.length)) (by rw [w1]; exact hs)
          (fun m h => hm m (by simp [h]))
      rw [w2] at g6
      refine ⟨t, g1, g2.trans w1, g3.trans w2, g4.trans w3, fun _ => g5 (.inr ?_), fun i c hi hc h => ?_⟩
      · rw [w4, BitVec.toNat_setWidth, BitVec.toNat_ofNat]
        omega
      · refine g6 i c hi hc (h.imp (fun h => (List.mem_cons.1 h).resolve_left fun h => ?_) fun h => ?_)
        · exact P.locNeLen i (lt_of hc) (Access.write.inj (Move.host.inj h)).1
        · rw [w5]; exact h

/-- The operand of a call is in place after its writes, whatever their order (rule R168). -/
theorem BufferPort.doMoves_perm (P : BufferPort loc lenLoc at' len cap) (s : State) (b : List Byte)
    (ws : List Move) (hs : s.status.busy = false) (hb : b.length < 65536)
    (hp : ws.Perm (writesFrom loc 0 b ++ [lineWR lenLoc (BitVec.ofNat 32 b.length)])) :
    ∃ t, s.doMoves ws = .next t ∧ t.status = s.status ∧ t.cap = s.cap ∧ t.schedule = s.schedule ∧
      (len t).toNat = b.length ∧ ∀ i c, i < cap s.cap → b[i]? = some c → at' t i = c := by
  obtain ⟨t, g1, g2, g3, g4, g5, g6⟩ := P.doMoves_operand b hb ws s hs fun m h => hp.mem_iff.1 h
  refine ⟨t, g1, g2, g3, g4, g5 (.inl (hp.mem_iff.2 (by simp))), fun i c hi hc => g6 i c hi hc (.inl ?_)⟩
  rw [hp.mem_iff, List.mem_append, mem_writesFrom]
  exact .inl ⟨i, c, hc, by rw [Nat.zero_add]⟩

/-- Reading a value of at most the capacity: the locations below the length register's value. -/
theorem BufferPort.readValue_spec (P : BufferPort loc lenLoc at' len cap) (s : State)
    (h : (len s).toNat ≤ cap s.cap) (hat : ∀ u i, at' (s.hostRead u) i = at' s i) :
    ∃ t, s.readValue lenLoc loc = .next (.value ((List.range (len s).toNat).map (at' s)), t) ∧
      t.status = s.status ∧ t.schedule = s.schedule := by
  have hlen : (s.memRead lenLoc).toNat = (len s).toNat := by
    rw [P.readLen, BitVec.toNat_setWidth]
    have := (len s).isLt
    omega
  obtain ⟨t, ht, he⟩ := State.readFrom_spec loc (len s).toNat 0 (s.hostRead lenLoc)
  refine ⟨t, ?_, by rw [he]; rfl, by rw [he]; rfl⟩
  unfold State.readValue
  rw [State.doMove_read, andThen_next, State.hostRead_answer, hlen, ht, andThen_next,
    List.range_eq_range']
  congr 3
  apply List.map_congr_left
  intro j hj
  have hj := List.mem_range'_1.1 hj
  rw [P.readLoc _ j (by show j < cap s.cap; omega), setWidth_8_32, hat]

end

/-! ## A call -/

/-- What the host does after reading the status word of an idle block. -/
theorem State.takeResult_of_status (lenLoc : LocAddr) (loc : Nat → LocAddr) (s : State) (e : Err)
    (h : s.answer = ({ busy := false, done := true, err := e } : Status).toWord) :
    (e = .none → s.takeResult lenLoc loc = s.readValue lenLoc loc) ∧
    (e.isDecodeError = true → s.takeResult lenLoc loc = .next (.decodeError, s)) ∧
    (e = .length → s.takeResult lenLoc loc = .next (.length, s)) ∧
    (e = .badCmd → s.takeResult lenLoc loc = .next (.badCmd, s)) := by
  have hw : Status.ofWord s.answer = some { busy := false, done := true, err := e } := by
    rw [h]; cases e <;> decide
  unfold State.takeResult
  rw [hw]
  cases e <;>
    exact ⟨by first | exact fun _ => rfl | nofun, by first | exact fun _ => rfl | nofun,
      by first | exact fun _ => rfl | nofun, by first | exact fun _ => rfl | nofun⟩

/-- From the `CMD` write of a command on, a call is the command's own meaning on the accepted state (with
some reply), then the result, whatever the delay of the completion. -/
theorem State.command_of_idle (s : State) (hs : s.status.busy = false) (w : Word) (k : Nat)
    (lenLoc : LocAddr) (loc : Nat → LocAddr) {i : Instr} (hd : decode w = .command i) :
    ∃ r, (andThen (s.doMove (lineWR locCMD w)) fun u =>
        andThen (u.poll k) (State.takeResult lenLoc loc)) =
      andThen (exec i { s.acceptCommand w with reply := r }) fun t =>
        (t.hostRead locSTATUS).takeResult lenLoc loc := by
  rw [State.doMove_write_idle hs, andThen_next]
  have e : s.idleWrite locCMD w = s.acceptCommand w := rfl
  obtain ⟨r, hr⟩ := State.poll_of_busy k (s.acceptCommand w) rfl
  refine ⟨r, ?_⟩
  have hc : State.complete { s.acceptCommand w with reply := r } =
      exec i { s.acceptCommand w with reply := r } := by
    unfold State.complete
    show (match decode w with | .command i => exec i _ | .reserved _ => _) = _
    rw [hd]
  rw [e, hr, hc]
  cases exec i { s.acceptCommand w with reply := r } <;> rfl

end Sys2Proof.Machine
end

