-- ==== Sys2Proof/Laws/PerInstr.lean ====
section
/-!
SUPPORT. Statements made once per constructor of `Instr`, about the command as syntax.
-/

namespace Sys2Proof.Laws

/-- The family `CommandWord`: a command's word has legal fields, which are the fields the row of the opcode
table gives it, and the table's 32 bits hold all of it (rules R81, R86). -/
def CommandWord.Statement (i : Instr) : Prop :=
  (encodeFields i).wf = true ∧ Cmd32.ofWord (encode i) = encodeFields i ∧
    decodeTableWord 32 (encode i).toNat = some i

theorem CommandWord.enc : CommandWord.Statement Instr.enc := by
  unfold CommandWord.Statement; decide

theorem CommandWord.dec : CommandWord.Statement Instr.dec := by
  unfold CommandWord.Statement; decide

end Sys2Proof.Laws
end

