-- ==== Sys2Proof/Laws/Repack.lean ====
section
/-!
SUPPORT. What the hidden registers hold, as a bit string, and what absorbing and emitting do to it.
-/

namespace Sys2Proof.Machine

/-- The registers hold the unread bits `p`, the last absorbed bit rightmost (rules R119, R144). -/
def Repack.Holds (r : Repack) (p : List Bool) : Prop :=
  r.cnt.toNat = p.length ∧ r.acc.toNat = bitsVal p

theorem repackStart_holds : repackStart.Holds [] := by
  constructor <;> rfl

/-- `ACC < 2^CNT` whatever bits are held. -/
theorem Repack.Holds.acc_lt {r : Repack} {p : List Bool} (h : r.Holds p) :
    r.acc.toNat < 2 ^ r.cnt.toNat := by
  rw [h.1, h.2]; exact bitsVal_lt p

/-- Absorbing bits on the right, when the 12 bits of `ACC` have room. -/
theorem acc_absorb {w : Nat} {acc : Acc} {p : List Bool} (x : BitVec w) (hacc : acc.toNat = bitsVal p)
    (hw : p.length + w ≤ 12) :
    ((acc <<< w) ||| x.setWidth 12).toNat = bitsVal (p ++ msbBits x) := by
  have hp := bitsVal_lt p
  have hx := x.isLt
  have hlt : bitsVal p * 2 ^ w + x.toNat < 2 ^ 12 := by
    have h1 : (bitsVal p + 1) * 2 ^ w ≤ 2 ^ p.length * 2 ^ w := Nat.mul_le_mul_right _ hp
    have h2 : 2 ^ p.length * 2 ^ w ≤ 2 ^ 12 := by
      rw [← pow_add]; exact Nat.pow_le_pow_right (by decide) hw
    rw [Nat.add_mul, Nat.one_mul] at h1
    omega
  have h12 : x.toNat < 2 ^ 12 := by omega
  rw [bitsVal_append, length_msbBits, bitsVal_msbBits, BitVec.toNat_or, BitVec.toNat_shiftLeft,
    BitVec.toNat_setWidth, Nat.mod_eq_of_lt h12, hacc, Nat.shiftLeft_eq,
    Nat.mod_eq_of_lt (by omega), Nat.mul_comm, Nat.two_pow_add_eq_or_of_lt hx]

theorem Repack.Holds.absorbByte {r : Repack} {p : List Bool} (h : r.Holds p) (hp : p.length ≤ 4)
    (b : Byte) : (r.absorbByte b).Holds (p ++ msbBits b) := by
  refine ⟨?_, acc_absorb b h.2 (by omega)⟩
  show (r.cnt + 8#4).toNat = _
  rw [BitVec.toNat_add, h.1, List.length_append, length_msbBits]
  exact Nat.mod_eq_of_lt (by show p.length + 8 < 16; omega)

theorem Repack.Holds.absorbGroup {r : Repack} {p : List Bool} (h : r.Holds p) (hp : p.length ≤ 7)
    (v : Group) : (r.absorbGroup v).Holds (p ++ msbBits v) := by
  refine ⟨?_, acc_absorb v h.2 (by omega)⟩
  show (r.cnt + 5#4).toNat = _
  rw [BitVec.toNat_add, h.1, List.length_append, length_msbBits]
  exact Nat.mod_eq_of_lt (by show p.length + 5 < 16; omega)

theorem Repack.Holds.cnt_sub {r : Repack} {p q : List Bool} {w : Nat} (h : r.Holds (p ++ q))
    (hp : p.length = w) (hq : q.length ≤ 12) (hw : w ≤ 12) :
    (r.cnt - BitVec.ofNat 4 w).toNat = q.length := by
  have h1 := h.1
  have hlt := r.cnt.isLt
  rw [List.length_append] at h1
  rw [BitVec.toNat_sub, BitVec.toNat_ofNat, Nat.mod_eq_of_lt (by omega : w < 2 ^ 4)]
  omega

/-- Keeping the unread bits drops the bits before them. -/
theorem Repack.Holds.keep {r : Repack} {p q : List Bool} {c : Cnt} (h : r.Holds (p ++ q))
    (hc : c.toNat = q.length) (hq : q.length < 12) : (r.keep c).Holds q := by
  refine ⟨hc, ?_⟩
  have hlt : 2 ^ q.length < 2 ^ 12 := Nat.pow_lt_pow_right (by decide) hq
  have hpos : 0 < 2 ^ q.length := Nat.pow_pos (by decide)
  have hmask : ((1#12 <<< c) - 1#12).toNat = 2 ^ q.length - 1 := by
    have hs : (1#12 <<< c).toNat = 2 ^ q.length := by
      rw [BitVec.shiftLeft_eq', BitVec.toNat_shiftLeft, hc, Nat.shiftLeft_eq]
      simpa using Nat.mod_eq_of_lt hlt
    rw [BitVec.toNat_sub, hs]
    show (2 ^ 12 - 1 + 2 ^ q.length) % 2 ^ 12 = _
    rw [show 2 ^ 12 - 1 + 2 ^ q.length = 2 ^ 12 + (2 ^ q.length - 1) by omega,
      Nat.add_mod_left, Nat.mod_eq_of_lt (by omega)]
  show (r.acc &&& _).toNat = _
  rw [BitVec.toNat_and, hmask, Nat.and_two_pow_sub_one_eq_mod, h.2, bitsVal_append,
    Nat.mul_add_mod', Nat.mod_eq_of_lt (bitsVal_lt q)]

/-- Shifting the unread bits out leaves the bits before them. -/
theorem Repack.Holds.shift {r : Repack} {p q : List Bool} {w : Nat} {c : Cnt}
    (h : r.Holds (p ++ q)) (hc : c.toNat = q.length) :
    (r.acc >>> c).setWidth w = BitVec.ofNat w (bitsVal p) := by
  apply BitVec.eq_of_toNat_eq
  rw [BitVec.toNat_setWidth, BitVec.ushiftRight_eq', BitVec.toNat_ushiftRight, hc, h.2,
    bitsVal_append, Nat.shiftRight_eq_div_pow, Nat.add_comm, Nat.add_mul_div_right _ _
      (Nat.pow_pos (by decide)), Nat.div_eq_of_lt (bitsVal_lt q), Nat.zero_add, BitVec.toNat_ofNat]

/-- The emitting loop of rule R119 on held bits `p`: it emits the whole groups of `p` and holds the rest. -/
theorem Repack.Holds.emitGroups_spec (r : Repack) (p : List Bool) (k : Nat) (h : r.Holds p)
    (hlo : 5 * k ≤ p.length) (hhi : p.length < 5 * k + 5) (h12 : p.length ≤ 12) (fuel : Nat)
    (hf : k ≤ fuel) :
    (r.emitGroups fuel).1 = (slices 5 k p).map (fun x => BitVec.ofNat 5 (bitsVal x)) ∧
    (r.emitGroups fuel).2.Holds (p.drop (5*k)) := by
  induction k generalizing r p fuel with
  | zero =>
    have hlt : r.cnt < 5#4 := by rw [BitVec.lt_def, h.1]; show _ < 5; omega
    have hp : p.drop 0 = p := rfl
    cases fuel with
    | zero => simpa [Repack.emitGroups, slices] using h
    | succ f => simpa [Repack.emitGroups, slices, hlt] using h
  | succ k ih =>
    cases fuel with
    | zero => omega
    | succ f =>
    have hlt : ¬ r.cnt < 5#4 := by rw [BitVec.lt_def, h.1]; show ¬ _ < 5; omega
    have hsplit : p = p.take 5 ++ p.drop 5 := (List.take_append_drop 5 p).symm
    have h' : r.Holds (p.take 5 ++ p.drop 5) := hsplit ▸ h
    have hc := h'.cnt_sub (w := 5) (by simp; omega) (by simp; omega) (by decide)
    have hk := h'.keep hc (by simp; omega)
    have hs := h'.shift (w := 5) hc
    obtain ⟨i1, i2⟩ := ih (r.keep (r.cnt - 5#4)) (p.drop 5) hk (by simp; omega) (by simp; omega) (by simp; omega) f (by omega)
    simp only [Repack.emitGroups, hlt, if_false]
    refine ⟨?_, ?_⟩
    · rw [i1, slices_succ, List.map_cons]
      congr 1
    · rw [List.drop_drop] at i2
      rw [Nat.mul_succ, Nat.add_comm]; exact i2

/-- The byte loop of rule R119 from held bits `p`: the whole groups of `p` and the bytes, and the rest held. -/
theorem Repack.Holds.repackBytes_spec (bs : List Byte) (r : Repack) (p : List Bool) (h : r.Holds p)
    (hp : p.length ≤ 4) :
    (repackBytes r bs).1 =
      (slices 5 ((p.length + 8 * bs.length)/5) (p ++ byteBits bs)).map (fun x => BitVec.ofNat 5 (bitsVal x)) ∧
    (repackBytes r bs).2.Holds ((p ++ byteBits bs).drop (5 * ((p.length + 8 * bs.length)/5))) := by
  induction bs generalizing r p with
  | nil =>
    have : (p.length + 8 * ([]:List Byte).length)/5 = 0 := by simp; omega
    rw [this]
    simpa [repackBytes, slices, byteBits] using h
  | cons b bs ih =>
    have ha := h.absorbByte hp b
    obtain ⟨p1, hp1⟩ : ∃ p1, p1 = p ++ msbBits b := ⟨_, rfl⟩
    rw [← hp1] at ha
    have hl : p1.length = p.length + 8 := by simp [hp1]
    obtain ⟨e1, e2⟩ := Repack.Holds.emitGroups_spec _ p1 (p1.length / 5) ha (by omega) (by omega) (by omega) 2 (by omega)
    obtain ⟨k, hk⟩ : ∃ k, k = p1.length / 5 := ⟨_, rfl⟩
    rw [← hk] at e1 e2
    obtain ⟨i1, i2⟩ := ih _ (p1.drop (5*k)) e2 (by simp; omega)
    simp only [repackBytes]
    rw [e1, i1, ← List.map_append]
    have hlen : (p.length + 8 * (b :: bs).length) / 5 = k + ((p1.drop (5*k)).length + 8 * bs.length)/5 := by
      simp; omega
    have happ : p ++ byteBits (b :: bs) = p1 ++ byteBits bs := by
      rw [byteBits_cons, hp1, List.append_assoc]
    rw [hlen, happ, slices_add, slices_append_left 5 k p1 (byteBits bs) (by omega), List.drop_append_of_le_length (by omega)]
    refine ⟨rfl, ?_⟩
    rw [Nat.mul_add, ← List.drop_drop, List.drop_append_of_le_length (by omega)]
    exact i2

/-- The index loop of rule R144 from held bits `p`: the whole bytes of `p` and the indices, and the rest held. -/
theorem Repack.Holds.repackGroups_spec (vs : List Group) (r : Repack) (p : List Bool) (h : r.Holds p)
    (hp : p.length ≤ 7) :
    (repackGroups r vs).1 =
      (slices 8 ((p.length + 5 * vs.length)/8) (p ++ groupBits vs)).map (fun x => BitVec.ofNat 8 (bitsVal x)) ∧
    (repackGroups r vs).2.Holds ((p ++ groupBits vs).drop (8 * ((p.length + 5 * vs.length)/8))) := by
  induction vs generalizing r p with
  | nil =>
    have : (p.length + 5 * ([]:List Group).length)/8 = 0 := by simp; omega
    rw [this]
    simpa [repackGroups, slices, groupBits] using h
  | cons b bs ih =>
    have ha := h.absorbGroup hp b
    obtain ⟨p1, hp1⟩ : ∃ p1, p1 = p ++ msbBits b := ⟨_, rfl⟩
    rw [← hp1] at ha
    have hl : p1.length = p.length + 5 := by simp [hp1]
    have key : ∃ k, k = p1.length / 8 ∧
        ((r.absorbGroup b).emitByte).1 = (slices 8 k p1).map (fun x => BitVec.ofNat 8 (bitsVal x)) ∧
        ((r.absorbGroup b).emitByte).2.Holds (p1.drop (8*k)) := by
      refine ⟨_, rfl, ?_⟩
      unfold Repack.emitByte
      by_cases hlt : p1.length < 8
      · have : (r.absorbGroup b).cnt < 8#4 := by rw [BitVec.lt_def, ha.1]; exact hlt
        rw [if_pos this, show p1.length / 8 = 0 by omega]
        simpa [slices] using ha
      · have : ¬ (r.absorbGroup b).cnt < 8#4 := by rw [BitVec.lt_def, ha.1]; exact hlt
        rw [if_neg this, show p1.length / 8 = 1 by omega, slices_succ]
        have h' : (r.absorbGroup b).Holds (p1.take 8 ++ p1.drop 8) := by rw [List.take_append_drop]; exact ha
        have hc := h'.cnt_sub (w := 8) (by simp; omega) (by simp; omega) (by decide)
        exact ⟨by simp only [slices, List.range_zero, List.map_nil, List.map_cons]; congr 1; exact h'.shift hc, h'.keep hc (by simp; omega)⟩
    obtain ⟨k, hk, e1, e2⟩ := key
    obtain ⟨i1, i2⟩ := ih _ (p1.drop (8*k)) e2 (by simp; omega)
    simp only [repackGroups]
    rw [e1, i1, ← List.map_append]
    have hlen : (p.length + 5 * (b :: bs).length) / 8 = k + ((p1.drop (8*k)).length + 5 * bs.length)/8 := by
      simp; omega
    have happ : p ++ groupBits (b :: bs) = p1 ++ groupBits bs := by
      rw [hp1, List.append_assoc]; rfl
    rw [hlen, happ, slices_add, slices_append_left 8 k p1 (groupBits bs) (by omega), List.drop_append_of_le_length (by omega)]
    refine ⟨rfl, ?_⟩
    rw [Nat.mul_add, ← List.drop_drop, List.drop_append_of_le_length (by omega)]
    exact i2

end Sys2Proof.Machine
end

