-- ==== Sys2Proof/Tests/Slice0.lean ====
section
/-!
SUPPORT. Small tests, with expected values from the spec's vectors (spec/95_test_vectors.md) and rules, and one
witness for every statement that has hypotheses.
-/

namespace Sys2Proof.Tests

open Sys2Proof Sys2Proof.Machine

/-! ## Helpers -/

/-- An idle block of capacity `q` holding a byte sequence and a text, with lengths to match, and moves. -/
def block (q : Quanta) (b t : List Byte) (moves : List Move) : State :=
  { State.resetWith q with
    blen := BitVec.ofNat 16 b.length
    tlen := BitVec.ofNat 16 t.length
    bbuf := Memory.writeRange [] 0 b
    tbuf := Memory.writeRange [] 0 t
    schedule := moves }

/-- The same block with a command word in flight. -/
def busyBlock (q : Quanta) (w : Word) (b t : List Byte) (moves : List Move) : State :=
  (block q b t moves).acceptCommand w

/-- The codes of the texts the tests use (rule R82). -/
def textMZXQ : List Byte := [0x4D#8, 0x5A#8, 0x58#8, 0x51#8, 0x3D#8, 0x3D#8, 0x3D#8, 0x3D#8]
def textAB : List Byte := [0x41#8, 0x42#8, 0x3D#8, 0x3D#8, 0x3D#8, 0x3D#8, 0x3D#8, 0x3D#8]
def textAA : List Byte := [0x41#8, 0x41#8, 0x3D#8, 0x3D#8, 0x3D#8, 0x3D#8, 0x3D#8, 0x3D#8]
def textMYpad2 : List Byte := [0x4D#8, 0x59#8, 0x3D#8, 0x3D#8]
def textStrayPad : List Byte := [0x4D#8, 0x3D#8, 0x59#8, 0x3D#8]
def textLower : List Byte := [0x6D#8, 0x79#8, 0x3D#8, 0x3D#8, 0x3D#8, 0x3D#8, 0x3D#8, 0x3D#8]

/-! ## Decoding: words written out from rules R81 and R86 -/

/-- `ENC`: `RSV` = thirty 0 bits, `OP` = 01. -/
theorem test_decode_enc :
    decodeTableWord 32 0b00000000000000000000000000000001 = some .enc := by decide

/-- `DEC`: `RSV` = thirty 0 bits, `OP` = 10. -/
theorem test_decode_dec :
    decodeTableWord 32 0b00000000000000000000000000000010 = some .dec := by decide

/-- Words of rule R88 are refused by name: `OP` 3 and 0, and `RSV` not zero above a legal `OP`. -/
theorem test_decode_reserved :
    decode 0x00000003#32 = .reserved .opReserved ∧ decode 0x00000000#32 = .reserved .opReserved ∧
    decode 0x80000001#32 = .reserved .rsvNotZero ∧ decode 0x00000005#32 = .reserved .rsvNotZero := by
  decide

/-! ## Well-formedness: one ill-formed term for each check (rule R81) -/

theorem test_wf_accepts :
    Cmd32.wf { rsv := 0#30, op := 1#2 } = true ∧ Cmd32.wf { rsv := 0#30, op := 2#2 } = true ∧
    Instr.wf .enc = true ∧ Instr.wf .dec = true := by decide

theorem test_wf_refuses_rsv : Cmd32.wf { rsv := 1#30, op := 1#2 } = false := by decide

theorem test_wf_refuses_op :
    Cmd32.wf { rsv := 0#30, op := 0#2 } = false ∧ Cmd32.wf { rsv := 0#30, op := 3#2 } = false := by decide

/-! ## One step of each command -/

/-- Vector E3 through the step: `66 6F` gives `MZXQ====`, `TLEN = 8`, `STATUS = 0x02`. -/
theorem test_enc_E3 :
    ∃ t, step (busyBlock 13#13 1#32 [0x66#8, 0x6F#8] [] [.engine]) = .next t ∧
      t.textOperand = textMZXQ ∧ t.status.toWord = 0x02#32 ∧ t.tlen = 8#16 ∧ t.blen = 2#16 :=
  ⟨_, rfl, by decide⟩

/-- The trace of 95 section 2.5: `66 6F 6F 62` leaves two bits in `ACC`, which are `10`. -/
theorem test_enc_trace :
    ∃ t, exec .enc (block 13#13 [0x66#8, 0x6F#8, 0x6F#8, 0x62#8] [] []) = .next t ∧
      t.acc = 0x002#12 ∧ t.cnt = 2#4 ∧ t.tbufAt 6 = 0x51#8 ∧ t.tbufAt 7 = 0x3D#8 :=
  ⟨_, rfl, by decide⟩

/-- Vector A13: `AB======` is accepted, its discarded bits `01` unchecked, and gives the byte `00`. -/
theorem test_dec_A13 :
    ∃ t, step (busyBlock 13#13 2#32 [] textAB [.engine]) = .next t ∧
      t.byteOperand = [0x00#8] ∧ t.status.toWord = 0x02#32 ∧ t.blen = 1#16 ∧ t.tlen = 8#16 :=
  ⟨_, rfl, by decide⟩

/-- Vector X16: `AA=A====` is rejected with `PadPos`, and the earlier bytes stay. -/
theorem test_dec_X16 :
    ∃ t, exec .dec (block 13#13 [0x11#8]
        [0x41#8, 0x41#8, 0x3D#8, 0x41#8, 0x3D#8, 0x3D#8, 0x3D#8, 0x3D#8] []) = .next t ∧
      t.status.toWord = 0x0A#32 ∧ t.byteOperand = [0x11#8] ∧ t.tlen = 8#16 :=
  ⟨_, rfl, by decide⟩

/-! ## The port and the status word -/

/-- Vector M17: the status word `0x0000000A` decoded; 93 U4: a word with `ERR` 6 is refused. -/
theorem test_status_word :
    Status.ofWord 0x0000000A#32 = some { busy := false, done := true, err := .padPos } ∧
    Status.ofWord 0x0000001A#32 = none ∧ Status.ofWord 0x00000020#32 = none := by decide

/-- Vectors M18, M19, M10, M11: what addresses name at the default capacity. -/
theorem test_locate :
    locate 13#13 0x2001F#18 = .tbuf 31 ∧ locate 13#13 0x10013#18 = .bbuf 19 ∧
    locate 13#13 0x10041#18 = .unmapped ∧ locate 13#13 0x3FFFF#18 = .unmapped := by decide

/-- Vectors M12, M13: the stored bits of a write. -/
theorem test_port_writes :
    ((State.reset.memWrite 0x10040#18 0x1234#32).memRead 0x10040#18 = 0x34#32) ∧
    ((State.reset.memWrite 0x00002#18 0x12345#32).memRead 0x00002#18 = 0x2345#32) ∧
    State.reset.memRead 0x00004#18 = 0x0D#32 ∧ State.reset.memRead 0x00001#18 = 0x00#32 := by decide

/-- Rule R94: `LDB` writes the bytes in order, then `BLEN`; `ENC` is the write of 1 to `CMD`. -/
theorem test_notation :
    lineLDB [0x66#8, 0x6F#8] = [.host (.write 0x10000#18 0x66#32), .host (.write 0x10001#18 0x6F#32),
      .host (.write 0x00002#18 2#32)] ∧ lineENC = .host (.write 0x00000#18 1#32) := by decide

/-- Rules R168, R182: what the host reports for the status words `0x0E`, `0x12` and `0x01`. -/
theorem test_call_reports :
    let s := fun w => { State.reset with reply := some w }
    (s 0x0E#32).takeResult locBLEN locBBUF = .next (.decodeError, s 0x0E#32) ∧
    (s 0x12#32).takeResult locBLEN locBBUF = .next (.length, s 0x12#32) ∧
    (s 0x01#32).takeResult locBLEN locBBUF = .next (.noOutcome, s 0x01#32) := ⟨rfl, rfl, rfl⟩

/-- Rule R168: after `ERR = 0` the host reads the length register, then that many locations. -/
theorem test_call_reads :
    ∃ t, ({ block 13#13 [0x66#8] [] [] with reply := some 0x02#32 }).takeResult locBLEN locBBUF =
      .next (.value [0x66#8], t) := ⟨_, rfl⟩

/-- Vector M1: `withFetchWord` makes the very next step complete the word, here a reserved one. -/
theorem test_fetch_word :
    ∃ t, step (State.reset.withFetchWord 32 3) = .next t ∧ t.status.toWord = 0x16#32 ∧ t.cmd = 3#32 :=
  ⟨_, rfl, by decide⟩

/-! ## Witnesses: for each statement with hypotheses, a state and operands that meet them -/

theorem witness_DecodeEncodeAgree :
    Instr.wf .enc = true ∧ decode 1#32 = .command .enc ∧ 1#32 = encode .enc ∧
    Instr.wf .dec = true ∧ decode 2#32 = .command .dec ∧ 2#32 = encode .dec := by decide

/-- Both ends of each range of rule R83, and the codes next to them. -/
theorem witness_SymbolClasses :
    symIndex 0x41#8 = .data 0#5 ∧ symIndex 0x5A#8 = .data 25#5 ∧ symIndex 0x32#8 = .data 26#5 ∧
    symIndex 0x37#8 = .data 31#5 ∧ symIndex 0x3D#8 = .pad ∧ symIndex 0x40#8 = .none ∧
    symIndex 0x5B#8 = .none ∧ symIndex 0x31#8 = .none ∧ symIndex 0x38#8 = .none := by decide

theorem witness_StatusWords :
    Status.legal { busy := true, done := false, err := .none } = true ∧
    Status.legal { busy := false, done := true, err := .badCmd } = true ∧
    Status.ofWord 0x16#32 = some { busy := false, done := true, err := .badCmd } := by decide

/-- Lengths 0 to 4 meet the five padding clauses; at length 1 the last data symbol is at 1, pads from 2 on. -/
theorem witness_EncodeLengthAndPadding :
    8 * [0x66#8].length % 40 = 8 ∧ 8 * [0x66#8, 0#8].length % 40 = 16 ∧
    8 * [0x66#8, 0#8, 0#8].length % 40 = 24 ∧ 8 * [0x66#8, 0#8, 0#8, 0#8].length % 40 = 32 ∧
    8 * ([] : List Byte).length % 40 = 0 ∧
    (b32Encode [0x66#8])[1]? = some (alpha 24#5) ∧ (b32Encode [0x66#8])[2]? = some padSymbol ∧
    (b32Encode [0x66#8])[7]? = some padSymbol := by decide

/-- 95 section 2.6: `07 C0`, the straddling group 1 and the last group 3, which has no second byte. -/
theorem witness_EncodeGroupClosedForm :
    3 < (8 * [0x07#8, 0xC0#8].length + 4) / 5 ∧ (b32Encode [0x07#8, 0xC0#8])[1]? = some (alpha 31#5) ∧
    (b32Encode [0x07#8, 0xC0#8])[3]? = some (alpha 0#5) := by decide

theorem witness_EncodePrefixLaw : [0x66#8, 0x6F#8, 0x6F#8, 0x62#8, 0x61#8].length % 5 = 0 := by decide

/-- Vectors X1, X11, X18: each cause occurs; A24: a text of one pad only is accepted. -/
theorem witness_DecodeFailureCauses :
    b32Decode textMYpad2 = .fail .padCount ∧ b32Decode textStrayPad = .fail .padPos ∧
    b32Decode textLower = .fail .symbol ∧ b32Decode [0x3D#8] = .ok [] := by decide

/-- Vector A3: indices 12, 25, 23, 16 and four pads. -/
theorem witness_DecodeBytesClosedForm :
    [12#5, 25#5, 23#5, 16#5].map alpha ++ List.replicate 4 padSymbol = textMZXQ ∧
    b32Decode textMZXQ = .ok [0x66#8, 0x6F#8] := by decide

/-- Vector A13: accepted, and not canonical. -/
theorem witness_DecodeOfEncode : b32Decode textAB = .ok [0x00#8] := by decide

theorem witness_EncodeOfDecodeIffCanonical :
    b32Decode textAB = .ok [0x00#8] ∧ isCanonical textAB = false ∧
    b32Decode textAA = .ok [0x00#8] ∧ isCanonical textAA = true := by decide

/-- A source of exactly the capacity, five bytes at one quantum. -/
theorem witness_EncWritesTextAndLength :
    (block 1#13 [0#8, 1#8, 2#8, 3#8, 4#8] [] []).blen.toNat = (block 1#13 [0#8, 1#8, 2#8, 3#8, 4#8] [] []).bcap ∧
    (block 1#13 [0#8, 1#8, 2#8, 3#8, 4#8] [] []).blen.toNat ≤ 5 := by decide

/-- A text of exactly the capacity, eight symbols at one quantum (vector A3). -/
theorem witness_DecWritesBytesAndLength :
    (block 1#13 [] textMZXQ []).tlen.toNat ≤ (block 1#13 [] textMZXQ []).tcap ∧
    (block 1#13 [] textMZXQ []).tlen.toNat = 8 ∧
    b32Decode (block 1#13 [] textMZXQ []).textOperand = .ok [0x66#8, 0x6F#8] := by decide

theorem witness_DecRejectedChangesOnlyStatus :
    (block 1#13 [] textLower []).tlen.toNat ≤ (block 1#13 [] textLower []).tcap ∧
    b32Decode (block 1#13 [] textLower []).textOperand = .fail .symbol := by decide

/-- Equal to the capacity, and one above it, for both lengths (vectors E28, E29, A30, X29). -/
theorem witness_CapacityCheck :
    let s := fun (n m : Nat) =>
      { State.reset with blen := BitVec.ofNat 16 n, tlen := BitVec.ofNat 16 m }
    (s 65 0).blen.toNat ≤ (s 65 0).bcap ∧ (s 66 0).bcap < (s 66 0).blen.toNat ∧
    (s 0 104).tlen.toNat ≤ (s 0 104).tcap ∧ (s 0 105).tcap < (s 0 105).tlen.toNat := by decide

theorem witness_RepackRegistersAfterCommand :
    (∃ t, exec .enc (block 1#13 [0x66#8] [] []) = .next t ∧ t.status.err = .none) ∧
    (∃ t, exec .dec (block 1#13 [] textMZXQ []) = .next t ∧ t.status.err = .none ∧
      validateText (block 1#13 [] textMZXQ []).textOperand = .ok [12#5, 25#5, 23#5, 16#5]) ∧
    (∃ t, exec .dec (block 1#13 [] textLower []) = .next t ∧ t.status.err ≠ .none) :=
  ⟨⟨_, rfl, by decide⟩, ⟨_, rfl, by decide, by rfl⟩, ⟨_, rfl, by decide⟩⟩

theorem witness_EncThenDecRestoresBytes :
    (block 1#13 [0x66#8, 0x6F#8] textAB []).blen.toNat ≤ (block 1#13 [0x66#8, 0x6F#8] textAB []).bcap := by
  decide

theorem witness_RepeatedCommandChangesNothing : (block 1#13 [0x66#8, 0x6F#8] textAB []).Inv :=
  ⟨by decide, by decide, by decide, by decide, by decide, by decide, by decide, by decide⟩

/-- Two blocks that agree on the source and differ elsewhere, for each command. -/
theorem witness_OutcomeDependsOnSourceOnly :
    (let s := busyBlock 1#13 1#32 [0x66#8] [] []
     let u := { busyBlock 1#13 1#32 [0x66#8] textAB [] with acc := 3#12 }
     s.cmd = u.cmd ∧ s.cap = u.cap ∧ decode s.cmd = .command .enc ∧ s.blen = u.blen ∧
      s.bbufAt 0 = u.bbufAt 0 ∧ s ≠ u) ∧
    (let s := busyBlock 1#13 2#32 [] [0x41#8] []
     let u := { busyBlock 1#13 2#32 [0x66#8] [0x41#8] [] with acc := 3#12 }
     s.cmd = u.cmd ∧ s.cap = u.cap ∧ decode s.cmd = .command .dec ∧ s.tlen = u.tlen ∧
      s.tbufAt 0 = u.tbufAt 0 ∧ s ≠ u) := by decide

theorem witness_CommandWriteAccepted :
    (let s := block 13#13 [] [] [.host (.write 0x00000#18 3#32), .engine]
     s.schedule = .host (.write 0x00000#18 3#32) :: [.engine] ∧ s.status.busy = false) ∧
    (let s := busyBlock 13#13 1#32 [] [] [.host (.write 0x00000#18 2#32)]
     s.schedule = .host (.write 0x00000#18 2#32) :: [] ∧ s.status.busy = true) := by decide

theorem witness_StepRunsDecodedCommand :
    (let s := busyBlock 13#13 1#32 [] [] [.engine, .reset]
     s.status.busy = true ∧ s.schedule = .engine :: [.reset] ∧ decode s.cmd = .command .enc) ∧
    (let s := busyBlock 13#13 2#32 [] [] []
     s.status.busy = true ∧ s.schedule = [] ∧ decode s.cmd = .command .dec) ∧
    (let s := busyBlock 13#13 5#32 [] [] [.engine]
     s.status.busy = true ∧ s.schedule = .engine :: [] ∧ decode s.cmd = .reserved .rsvNotZero) := by decide

theorem witness_CompletionEndsBusy :
    ((busyBlock 13#13 1#32 [] [] [.engine]).schedule = .engine :: [] ∧
      (busyBlock 13#13 1#32 [] [] [.engine]).status.busy = true) ∧
    ((block 13#13 [] [] [.engine]).schedule = .engine :: [] ∧
      (block 13#13 [] [] [.engine]).status.busy = false) := by decide

/-- The reserved words on both sides of the two legal ones, and the largest. -/
theorem witness_ReservedWordFaults :
    (0x00000000#32 ≠ 0x00000001#32 ∧ 0x00000000#32 ≠ 0x00000002#32) ∧
    (0x00000003#32 ≠ 0x00000001#32 ∧ 0x00000003#32 ≠ 0x00000002#32) ∧
    (0xFFFFFFFF#32 ≠ 0x00000001#32 ∧ 0xFFFFFFFF#32 ≠ 0x00000002#32) ∧
    (let s := block 13#13 [] [] [.host (.write 0x00000#18 3#32), .engine]
     s.status.busy = false ∧ s.schedule = .host (.write 0x00000#18 3#32) :: .engine :: []) := by decide

theorem witness_FaultChangesOnlyStatus :
    ∃ t, (busyBlock 13#13 2#32 [] textLower []).complete = .next t ∧ t.status.err = .symbol :=
  ⟨_, rfl, by decide⟩

/-- Each of the five codes is reported in some state (95 sections 2.3, 2.4). -/
theorem witness_FaultPriority :
    (∃ t, (busyBlock 13#13 3#32 [] [] []).complete = .next t ∧ t.status.err = .badCmd) ∧
    (∃ t, ({ busyBlock 13#13 1#32 [] [] [] with blen := 66#16 }).complete = .next t ∧
      t.status.err = .length) ∧
    (∃ t, (busyBlock 13#13 2#32 [] textMYpad2 []).complete = .next t ∧ t.status.err = .padCount) ∧
    (∃ t, (busyBlock 13#13 2#32 [] textStrayPad []).complete = .next t ∧ t.status.err = .padPos) ∧
    (∃ t, (busyBlock 13#13 2#32 [] textLower []).complete = .next t ∧ t.status.err = .symbol) :=
  ⟨⟨_, rfl, by decide⟩, ⟨_, rfl, by decide⟩, ⟨_, rfl, by decide⟩, ⟨_, rfl, by decide⟩, ⟨_, rfl, by decide⟩⟩

theorem witness_BusyTransitions :
    (∃ t, step (block 13#13 [] [] [.host (.write 0x00000#18 2#32)]) = .next t ∧
      (block 13#13 [] [] [.host (.write 0x00000#18 2#32)]).status.busy = false ∧ t.status.busy = true) ∧
    (∃ t, step (busyBlock 13#13 2#32 [] [] [.reset]) = .next t ∧
      (busyBlock 13#13 2#32 [] [] [.reset]).status.busy = true ∧ t.status.busy = false) :=
  ⟨⟨_, rfl, by decide⟩, ⟨_, rfl, by decide⟩⟩

/-- Vector M15: a write while busy. -/
theorem witness_BusyFreezesBlock :
    ∃ t, step (busyBlock 13#13 1#32 [0x66#8] [] [.host (.write 0x10000#18 0x55#32), .engine]) = .next t ∧
      (busyBlock 13#13 1#32 [0x66#8] [] [.host (.write 0x10000#18 0x55#32), .engine]).status.busy = true ∧
      t.status.busy = true :=
  ⟨_, rfl, by decide⟩

theorem witness_BusyEnds :
    (busyBlock 13#13 1#32 [] [] [.host (.read 0x00001#18)]).status.busy = true := by decide

theorem witness_DelayIsUnbounded :
    let s := block 13#13 [] [] (.host (.write 0x00000#18 1#32) ::
      (List.replicate 2 (Move.host (.read 0x00001#18)) ++ .engine :: []))
    s.status.busy = false ∧ s.schedule = .host (.write 0x00000#18 1#32) ::
      (List.replicate 2 (Move.host (.read 0x00001#18)) ++ .engine :: []) := by decide

/-- An address for each clause, at both ends of its range, at one quantum (`BCAP` 5, `TCAP` 8); the last line
says that the clauses' ranges meet without overlap. -/
theorem witness_HostReadReturns :
    (block 1#13 [] [] [.host (.read 0x00000#18)]).schedule = .host (.read 0x00000#18) :: [] ∧
    locate 1#13 0x00000#18 = .cmd ∧ locate 1#13 0x00001#18 = .status ∧ locate 1#13 0x00002#18 = .blen ∧
    locate 1#13 0x00003#18 = .tlen ∧ locate 1#13 0x00004#18 = .cap ∧ locate 1#13 0x00005#18 = .unmapped ∧
    locate 1#13 0x0FFFF#18 = .unmapped ∧ locate 1#13 0x10000#18 = .bbuf 0 ∧
    locate 1#13 0x10004#18 = .bbuf 4 ∧ locate 1#13 0x10005#18 = .unmapped ∧
    locate 1#13 0x1FFFF#18 = .unmapped ∧ locate 1#13 0x20000#18 = .tbuf 0 ∧
    locate 1#13 0x20007#18 = .tbuf 7 ∧ locate 1#13 0x20008#18 = .unmapped ∧
    locate 1#13 0x30000#18 = .unmapped ∧ locate 1#13 0x3FFFF#18 = .unmapped ∧
    0x10004 < 0x10000 + (block 1#13 [] [] []).bcap ∧ 0x10005 = 0x10000 + (block 1#13 [] [] []).bcap ∧
    0x20007 < 0x20000 + (block 1#13 [] [] []).tcap ∧ 0x20008 = 0x20000 + (block 1#13 [] [] []).tcap := by
  decide

/-- The same addresses as `witness_HostReadReturns` serve each clause; here the schedule, idle and busy. -/
theorem witness_HostWriteStores :
    (block 1#13 [] [] [.host (.write 0x10004#18 0x77#32)]).schedule =
      .host (.write 0x10004#18 0x77#32) :: [] ∧
    (block 1#13 [] [] [.host (.write 0x10004#18 0x77#32)]).status.busy = false ∧
    4 < (block 1#13 [] [] []).bcap ∧ (0x10004#18).toNat = 0x10000 + 4 ∧
    7 < (block 1#13 [] [] []).tcap ∧ (0x20007#18).toNat = 0x20000 + 7 ∧
    0x10000 + (block 1#13 [] [] []).bcap ≤ (0x10005#18).toNat ∧
    0x20000 + (block 1#13 [] [] []).tcap ≤ (0x20008#18).toNat ∧
    4 ≤ (0x00004#18).toNat ∧ (0x0FFFF#18).toNat < 0x10000 ∧
    (busyBlock 1#13 1#32 [] [] [.host (.write 0x10004#18 0x77#32)]).status.busy = true := by decide

/-- The largest capacity: the last location of each buffer is inside its region (rule R52). -/
theorem witness_HostWriteStores_largest :
    locate 8191#13 0x19FFA#18 = .bbuf 40954 ∧ locate 8191#13 0x19FFB#18 = .unmapped ∧
    locate 8191#13 0x2FFF7#18 = .tbuf 65527 ∧ locate 8191#13 0x2FFF8#18 = .unmapped := by decide

theorem witness_ReadSeesIdleWrite :
    (let s := block 1#13 [] [] [.host (.write 0x00002#18 0x12345#32), .host (.read 0x00002#18)]
     s.status.busy = false ∧
      s.schedule = .host (.write 0x00002#18 0x12345#32) :: .host (.read 0x00002#18) :: []) ∧
    (let s := block 1#13 [] [] [.host (.write 0x20007#18 0x14D#32), .host (.read 0x20007#18)]
     s.status.busy = false ∧ 7 < s.tcap ∧ (0x20007#18).toNat = 0x20000 + 7 ∧
      s.schedule = .host (.write 0x20007#18 0x14D#32) :: .host (.read 0x20007#18) :: []) := by decide

theorem witness_CapIsConstant : ∃ t, step (busyBlock 13#13 1#32 [] [] [.reset]) = .next t := ⟨_, rfl⟩

/-- The operand writes in another order than the notation's, at a capacity they fit, and the boundary of the
two outcomes: five bytes fit one quantum, six do not. -/
theorem witness_CallEncodeReturnsText :
    (block 1#13 [] [] []).status.busy = false ∧ [0x66#8, 0x6F#8].length < 65536 ∧
    [lineWR locBLEN 2#32, lineWR (locBBUF 1) 0x6F#32, lineWR (locBBUF 0) 0x66#32].Perm
      (lineLDB [0x66#8, 0x6F#8]) ∧
    5 ≤ (block 1#13 [] [] []).bcap ∧ ¬6 ≤ (block 1#13 [] [] []).bcap := by decide

/-- As for `Encode`: one text for each of the three outcomes; eight symbols fit one quantum, nine do not. -/
theorem witness_CallDecodeReturnsBytes :
    (block 1#13 [] [] []).status.busy = false ∧ textMZXQ.length < 65536 ∧
    [lineWR locTLEN 2#32, lineWR (locTBUF 1) 0x59#32, lineWR (locTBUF 0) 0x4D#32].Perm
      (lineLDT [0x4D#8, 0x59#8]) ∧
    textMZXQ.length ≤ (block 1#13 [] [] []).tcap ∧ b32Decode textMZXQ = .ok [0x66#8, 0x6F#8] ∧
    textLower.length ≤ (block 1#13 [] [] []).tcap ∧ b32Decode textLower = .fail .symbol ∧
    (block 1#13 [] [] []).tcap < (textMZXQ ++ [0x41#8]).length := by decide

theorem witness_ResetEvent : (busyBlock 13#13 1#32 [] [] [.reset]).schedule = .reset :: [] := by decide

theorem witness_ResetAbandonsCommand :
    (busyBlock 13#13 1#32 [] [] [.reset, .engine]).status.busy = true ∧
    (busyBlock 13#13 1#32 [] [] [.reset, .engine]).schedule = .reset :: .engine :: [] := by decide

theorem witness_StepKeepsInvariant :
    (busyBlock 1#13 1#32 [0x66#8, 0x6F#8] textAB [.engine]).Inv ∧
    ∃ t, step (busyBlock 1#13 1#32 [0x66#8, 0x6F#8] textAB [.engine]) = .next t :=
  ⟨⟨by decide, by decide, by decide, by decide, by decide, by decide, by decide, by decide⟩, ⟨_, rfl⟩⟩

/-- The smallest and the largest capacity. -/
theorem witness_ResetMeetsInvariant : 1 ≤ (1#13).toNat ∧ 1 ≤ (8191#13).toNat := by decide

theorem witness_StepKeepsOutcomeOfCommand :
    (busyBlock 1#13 3#32 [] textAB [.engine]).Inv ∧
    (busyBlock 1#13 3#32 [] textAB [.engine]).OutcomeMatches ∧
    ∃ t, step (busyBlock 1#13 3#32 [] textAB [.engine]) = .next t :=
  ⟨⟨by decide, by decide, by decide, by decide, by decide, by decide, by decide, by decide⟩,
    ⟨by decide, by decide⟩, ⟨_, rfl⟩⟩

/-- A reachable state with a fault recorded: `DEC` of the one-symbol text `m` at one quantum. -/
theorem witness_ReachableStatus :
    ∃ s, Reachable s ∧ s.status.err.isDecodeError = true :=
  ⟨_, .next (.next (.next (.next (.start 1#13 0 [.host (.write 0x20000#18 0x6D#32),
    .host (.write 0x00003#18 1#32), .host (.write 0x00000#18 2#32), .engine] (by decide))
    rfl) rfl) rfl) rfl, by decide⟩

end Sys2Proof.Tests
end

section
/-!
PROOFS of the family of `00_scope.md`: the invariant of the block (O45, O46). Every operation keeps it, each by
one lemma; the completion step and the step are put together from these.
-/

namespace Sys2Proof.Machine

/-! ## The hidden registers at the end of a command -/

/-- After the bytes of an encoding the registers hold the `8n mod 5` bits of the last group (rule R119). -/
theorem repackBytes_registers (b : List Byte) :
    (repackBytes repackStart b).2.cnt.toNat = 8 * b.length % 5 ∧
    (repackBytes repackStart b).2.acc.toNat < 2 ^ (8 * b.length % 5) := by
  obtain ⟨-, hold⟩ := repackStart_holds.repackBytes_spec b _ _ (by decide)
  have hcnt : (repackBytes repackStart b).2.cnt.toNat = 8 * b.length % 5 := by
    rw [hold.1, List.length_drop, List.nil_append, length_byteBits, List.length_nil]
    omega
  exact ⟨hcnt, hcnt ▸ hold.acc_lt⟩

/-- After the indices of a decoding the registers hold the `5D mod 8` discarded bits (rules R140, R144). -/
theorem repackGroups_registers (vs : List Group) :
    (repackGroups repackStart vs).2.cnt.toNat = 5 * vs.length % 8 ∧
    (repackGroups repackStart vs).2.acc.toNat < 2 ^ (5 * vs.length % 8) := by
  obtain ⟨-, hold⟩ := repackStart_holds.repackGroups_spec vs _ _ (by decide)
  have hcnt : (repackGroups repackStart vs).2.cnt.toNat = 5 * vs.length % 8 := by
    rw [hold.1, List.length_drop, List.nil_append, length_groupBits, List.length_nil]
    omega
  exact ⟨hcnt, hcnt ▸ hold.acc_lt⟩

theorem State.repackLegal_of_registers {s : State} {n : Nat} (hn : n ≤ 7)
    (h : s.cnt.toNat = n ∧ s.acc.toNat < 2 ^ n) : s.repackLegal = true := by
  obtain ⟨rfl, hacc⟩ := h
  simp [State.repackLegal, hn, hacc]

/-! ## What each operation of the block does to the invariant -/

theorem Status.legal_finished (e : Err) :
    Status.legal { busy := false, done := true, err := e } = true := by
  simp [Status.legal]

theorem State.resetWith_inv {q : Quanta} (hq : 1 ≤ q.toNat) : (State.resetWith q).Inv where
  capacity := hq
  flags    := rfl
  bbufWf   := rfl
  tbufWf   := rfl
  bbufMap  := rfl
  tbufMap  := rfl
  repack   := rfl
  cleared  := nofun

namespace State.Inv

variable {s t : State}

theorem withReplySchedule (h : s.Inv) (r : Option Word) (ms : List Move) :
    State.Inv { s with reply := r, schedule := ms } :=
  { h with }

theorem setBlen (h : s.Inv) (n : Len) : (s.setBlen n).Inv :=
  { h with }

theorem setTlen (h : s.Inv) (n : Len) : (s.setTlen n).Inv :=
  { h with }

theorem setBbuf (h : s.Inv) {i : Nat} (hi : i < s.bcap) (v : Byte) : (s.setBbuf i v).Inv :=
  { h with
    bbufWf  := Memory.wf_write i v h.bbufWf
    bbufMap := Memory.inside_write v hi h.bbufMap }

theorem setTbuf (h : s.Inv) {i : Nat} (hi : i < s.tcap) (v : Byte) : (s.setTbuf i v).Inv :=
  { h with
    tbufWf  := Memory.wf_write i v h.tbufWf
    tbufMap := Memory.inside_write v hi h.tbufMap }

theorem acceptCommand (h : s.Inv) (w : Word) : (s.acceptCommand w).Inv :=
  { h with flags := rfl, repack := rfl, cleared := fun _ => ⟨rfl, rfl⟩ }

theorem finish (h : s.Inv) (e : Err) : (s.finish e).Inv :=
  { h with flags := Status.legal_finished e, cleared := nofun }

theorem resetEvent (h : s.Inv) : s.resetEvent.Inv :=
  { State.resetWith_inv h.capacity with }

/-- A successful `ENC` keeps the invariant: the text fits (rule R116), and fewer than five bits stay held. -/
theorem encDone (h : s.Inv) (hfits : s.blen.toNat ≤ s.bcap) : (encDone s).Inv :=
  { h with
    flags   := Status.legal_finished .none
    tbufWf  := Memory.wf_writeRange _ 0 h.tbufWf
    tbufMap := Memory.inside_writeRange _
      ((Nat.zero_add _).trans_le (State.length_b32Encode_le_tcap hfits)) h.tbufMap
    repack  := State.repackLegal_of_registers (by omega) (repackBytes_registers s.byteOperand)
    cleared := nofun }

/-- A successful `DEC` keeps the invariant: the bytes fit (rule R141), and fewer than eight bits stay held. -/
theorem decDone (h : s.Inv) {vs : List Group} (hfits : s.tlen.toNat ≤ s.tcap)
    (hv : validateText s.textOperand = .ok vs) : (decDone vs s).Inv :=
  { h with
    flags   := Status.legal_finished .none
    bbufWf  := Memory.wf_writeRange _ 0 h.bbufWf
    bbufMap := Memory.inside_writeRange _
      ((Nat.zero_add _).trans_le (State.length_groupBytes_le_bcap hfits hv)) h.bbufMap
    repack  := State.repackLegal_of_registers (by omega) (repackGroups_registers vs)
    cleared := nofun }

/-! ## What each move does to the invariant -/

theorem exec (h : s.Inv) {i : Instr} (he : exec i s = .next t) : t.Inv := by
  cases i with
  | enc =>
    rcases exec_enc_cases s with ⟨-, h'⟩ | ⟨hfits, h'⟩ <;> cases h'.symm.trans he
    · exact h.finish .length
    · exact h.encDone hfits
  | dec =>
    rcases exec_dec_cases s with ⟨-, h'⟩ | ⟨-, c, -, h'⟩ | ⟨hfits, vs, hv, h'⟩ <;> cases h'.symm.trans he
    · exact h.finish .length
    · exact h.finish c.err
    · exact h.decDone hfits hv

theorem complete (h : s.Inv) (hc : s.complete = .next t) : t.Inv := by
  rcases s.complete_cases with ⟨-, -, h'⟩ | ⟨i, -, h'⟩
  · cases h'.symm.trans hc
    exact h.finish .badCmd
  · exact h.exec (h'.symm.trans hc)

theorem engineTurn (h : s.Inv) (he : s.engineTurn = .next t) : t.Inv := by
  cases hb : s.status.busy with
  | true => exact h.complete ((State.engineTurn_busy hb).symm.trans he)
  | false =>
    cases (State.engineTurn_idle hb).symm.trans he
    exact h

theorem idleWrite (h : s.Inv) (a : LocAddr) (v : Word) : (s.idleWrite a v).Inv := by
  rcases s.idleWrite_cases a v with e | ⟨-, e⟩ | e | e | ⟨i, hi, e⟩ | ⟨i, hi, e⟩ <;> rw [e]
  · exact h
  · exact h.acceptCommand v
  · exact h.setBlen _
  · exact h.setTlen _
  · exact h.setBbuf hi _
  · exact h.setTbuf hi _

theorem step (h : s.Inv) (hst : step s = .next t) : t.Inv := by
  have hrest : ∀ rest, State.Inv { s with schedule := rest } := h.withReplySchedule s.reply
  rcases step_cases s with ⟨rest, -, h'⟩ | ⟨a, rest, -, h'⟩ | ⟨a, v, rest, -, -, h'⟩ |
    ⟨a, v, rest, -, -, h'⟩ | ⟨rest, -, h'⟩
  case inl => exact (hrest rest).engineTurn (h'.symm.trans hst)
  all_goals cases h'.symm.trans hst
  · exact h.withReplySchedule _ rest
  · exact hrest rest
  · exact (hrest rest).idleWrite a v
  · exact (hrest rest).resetEvent

end State.Inv

/-! ## The statements -/

/-- Settles O45: each kind of move keeps the invariant, and a step is one move. -/
theorem stepKeepsInvariant : Obligations.StepKeepsInvariant := by
  unfold Obligations.StepKeepsInvariant
  intro s t h hst
  exact h.step hst

/-- Settles O46: the buffers are empty, the registers clear, and the default capacity is 13. -/
theorem resetMeetsInvariant : Obligations.ResetMeetsInvariant := by
  unfold Obligations.ResetMeetsInvariant
  exact ⟨fun _ hq => State.resetWith_inv hq, State.resetWith_inv (by decide)⟩

end Sys2Proof.Machine
end

section
/-!
PROOFS of the family of `10_state.md`: the recorded outcome and `STATUS` (O47, O48, O49, O6), the hidden registers
after a command (O21), `CAP` (O40) and the reset values (O41). What a command that answers a next state did is said
once, by its outcome; the invariant of the outcome is put together from the operations as that of `00_scope.md` is.
-/

namespace Sys2Proof.Machine

variable {s t : State}

/-! ## The status word (rules R32, R89) -/

/-- Each field of `STAT32` at its weight (rule R89). -/
theorem Status.toNat_toWord (st : Status) :
    st.toWord.toNat = 4 * st.err.code.toNat + 2 * st.done.toNat + st.busy.toNat := by
  obtain ⟨b, d, e⟩ := st
  cases b <;> cases d <;> cases e <;> rfl

theorem Err.ofCode_eq_some_iff (c : BitVec 3) (e : Err) : Err.ofCode c = some e ↔ c = e.code := by
  revert c
  cases e <;> decide

theorem getLsbD_eq_iff (w : Word) (i : Nat) (b : Bool) :
    w.getLsbD i = b ↔ w.toNat / 2 ^ i % 2 = b.toNat := by
  rw [← Nat.toNat_testBit, BitVec.testBit_toNat]
  cases b with
  | false => exact Bool.toNat_eq_zero.symm
  | true => exact Bool.toNat_eq_one.symm

/-- What `Status.ofWord` checks, field by field. -/
theorem Status.ofWord_eq_some_iff (w : Word) (st : Status) :
    Status.ofWord w = some st ↔
      w.extractLsb' 5 27 = 0#27 ∧ w.extractLsb' 2 3 = st.err.code ∧
        w.getLsbD 1 = st.done ∧ w.getLsbD 0 = st.busy := by
  obtain ⟨b, d, e⟩ := st
  unfold Status.ofWord
  split
  · rename_i hrsv
    simp only [hrsv, true_and, Option.map_eq_some_iff, Err.ofCode_eq_some_iff, Status.mk.injEq]
    constructor
    · rintro ⟨e', hcode, rfl, rfl, rfl⟩
      exact ⟨hcode, rfl, rfl⟩
    · rintro ⟨hcode, rfl, rfl⟩
      exact ⟨e, hcode, rfl, rfl, rfl⟩
  · rename_i hrsv
    simp [hrsv]

/-- A status word is read as the flags whose word it is, and as none else. -/
theorem Status.ofWord_eq_some_iff_eq_toWord (w : Word) (st : Status) :
    Status.ofWord w = some st ↔ w = st.toWord := by
  have hw := w.isLt
  have hcode := st.err.code.isLt
  have hdone := st.done.toNat_le
  have hbusy := st.busy.toNat_le
  rw [Status.ofWord_eq_some_iff, getLsbD_eq_iff, getLsbD_eq_iff, ← BitVec.toNat_inj, ← BitVec.toNat_inj,
    ← BitVec.toNat_inj, Status.toNat_toWord]
  simp only [BitVec.extractLsb'_toNat, BitVec.toNat_ofNat, Nat.shiftRight_eq_div_pow]
  omega

/-- The legal flags: busy or as reset leaves them, with no outcome; or done, with any (rule R32). -/
theorem Status.legal_iff (st : Status) :
    st.legal = true ↔ (st.done = false ∧ st.err = .none) ∨ (st.busy = false ∧ st.done = true) := by
  obtain ⟨b, d, e⟩ := st
  cases b <;> cases d <;> simp [Status.legal]

/-- The eight words of rule R89. -/
theorem Status.toWord_mem_of_legal {st : Status} (h : st.legal = true) :
    st.toWord ∈ [0x00#32, 0x01#32, 0x02#32, 0x06#32, 0x0A#32, 0x0E#32, 0x12#32, 0x16#32] := by
  obtain ⟨b, d, e⟩ := st
  rcases (Status.legal_iff _).1 h with ⟨hd, he⟩ | ⟨hb, hd⟩
  · cases hd; cases he
    cases b <;> decide
  · cases hb; cases hd
    cases e <;> decide

/-- An outcome is recorded only beside `DONE` (rule R32). -/
theorem Status.done_of_err_ne_none {st : Status} (h : st.legal = true) (he : st.err ≠ .none) :
    st.done = true := by
  rcases (Status.legal_iff st).1 h with ⟨-, hnone⟩ | ⟨-, hdone⟩
  · exact absurd hnone he
  · exact hdone

theorem State.memRead_locSTATUS (s : State) : s.memRead locSTATUS = s.status.toWord := rfl

theorem State.resetWith_status_toWord (q : Quanta) : (State.resetWith q).status.toWord = 0#32 :=
  BitVec.eq_of_toNat_eq (Status.toNat_toWord _)

/-! ## What a completed command did, by its outcome -/

theorem Cause.err_ne_none (c : Cause) : c.err ≠ .none := by
  cases c <;> decide

theorem eq_encDone_of_exec (h : exec .enc s = .next t) (he : t.status.err = .none) :
    t = encDone s := by
  rcases exec_enc_cases s with ⟨-, h'⟩ | ⟨-, h'⟩ <;> cases h'.symm.trans h
  · cases he
  · rfl

theorem eq_decDone_of_exec (h : exec .dec s = .next t) (he : t.status.err = .none) :
    ∃ vs, validateText s.textOperand = .ok vs ∧ t = decDone vs s := by
  rcases exec_dec_cases s with ⟨-, h'⟩ | ⟨-, c, -, h'⟩ | ⟨-, vs, hv, h'⟩ <;> cases h'.symm.trans h
  · cases he
  · exact absurd he c.err_ne_none
  · exact ⟨vs, hv, rfl⟩

/-- A command that faults only records the cause (rule R183). -/
theorem eq_finish_of_exec {i : Instr} (h : exec i s = .next t) (he : t.status.err ≠ .none) :
    t = s.finish t.status.err := by
  cases i with
  | enc =>
    rcases exec_enc_cases s with ⟨-, h'⟩ | ⟨-, h'⟩ <;> cases h'.symm.trans h
    · rfl
    · exact absurd rfl he
  | dec =>
    rcases exec_dec_cases s with ⟨-, h'⟩ | ⟨-, c, -, h'⟩ | ⟨-, vs, -, h'⟩ <;> cases h'.symm.trans h
    · rfl
    · rfl
    · exact absurd rfl he

/-! ## The outcome of a completion belongs to the latched word (rule R180) -/

/-- No check of `Decode` gives `BadCmd`. -/
theorem outcomeAllowed_dec_of_validateText {x : List Byte} {c : Cause}
    (h : validateText x = .error c) : outcomeAllowed (.command .dec) c.err = true := by
  rcases cause_of_validateText h with rfl | rfl | rfl <;> rfl

theorem outcomeAllowed_of_exec {i : Instr} (h : exec i s = .next t) :
    outcomeAllowed (.command i) t.status.err = true := by
  cases i with
  | enc => rcases exec_enc_cases s with ⟨-, h'⟩ | ⟨-, h'⟩ <;> cases h'.symm.trans h <;> rfl
  | dec =>
    rcases exec_dec_cases s with ⟨-, h'⟩ | ⟨-, c, hv, h'⟩ | ⟨-, vs, -, h'⟩ <;> cases h'.symm.trans h
    · rfl
    · exact outcomeAllowed_dec_of_validateText hv
    · rfl

theorem outcomeAllowed_of_complete (h : s.complete = .next t) :
    outcomeAllowed (decode s.cmd) t.status.err = true := by
  rcases s.complete_cases with ⟨why, hd, h'⟩ | ⟨i, hd, h'⟩ <;> rw [hd]
  · cases h'.symm.trans h
    rfl
  · exact outcomeAllowed_of_exec (h'.symm.trans h)

/-! ## What each move does to the recorded outcome -/

theorem State.resetWith_outcomeMatches (q : Quanta) : (State.resetWith q).OutcomeMatches :=
  ⟨nofun, fun _ _ => rfl⟩

namespace State.OutcomeMatches

/-- Only `CMD` and `STATUS` matter. -/
theorem congr (h : s.OutcomeMatches) (hcmd : t.cmd = s.cmd) (hstatus : t.status = s.status) :
    t.OutcomeMatches := by
  unfold State.OutcomeMatches
  rw [hcmd, hstatus]
  exact h

/-- In flight no outcome is recorded (rule R160). -/
theorem acceptCommand (s : State) (w : Word) : (s.acceptCommand w).OutcomeMatches :=
  ⟨nofun, nofun⟩

theorem resetEvent (s : State) : s.resetEvent.OutcomeMatches :=
  (State.resetWith_outcomeMatches s.cap).congr rfl rfl

theorem complete (h : s.complete = .next t) : t.OutcomeMatches := by
  obtain ⟨u, hu, -, hdone, hcmd, -⟩ := s.complete_spec
  cases hu.symm.trans h
  refine ⟨fun _ => ?_, fun _ hnot => absurd (hdone.symm.trans hnot) nofun⟩
  rw [hcmd]
  exact outcomeAllowed_of_complete h

theorem engineTurn (h : s.OutcomeMatches) (he : s.engineTurn = .next t) : t.OutcomeMatches := by
  cases hb : s.status.busy with
  | true => exact complete ((State.engineTurn_busy hb).symm.trans he)
  | false =>
    cases (State.engineTurn_idle hb).symm.trans he
    exact h

theorem idleWrite (h : s.OutcomeMatches) (a : LocAddr) (v : Word) :
    (s.idleWrite a v).OutcomeMatches := by
  rcases s.idleWrite_cases a v with e | ⟨-, e⟩ | e | e | ⟨i, -, e⟩ | ⟨i, -, e⟩ <;> rw [e]
  case inr.inl => exact acceptCommand s v
  all_goals exact h.congr rfl rfl

theorem step (h : s.OutcomeMatches) (hst : step s = .next t) : t.OutcomeMatches := by
  have hrest : ∀ rest, State.OutcomeMatches { s with schedule := rest } :=
    fun _ => h.congr rfl rfl
  rcases step_cases s with ⟨rest, -, h'⟩ | ⟨a, rest, -, h'⟩ | ⟨a, v, rest, -, -, h'⟩ |
    ⟨a, v, rest, -, -, h'⟩ | ⟨rest, -, h'⟩
  case inl => exact (hrest rest).engineTurn (h'.symm.trans hst)
  all_goals cases h'.symm.trans hst
  · exact h.congr rfl rfl
  · exact hrest rest
  · exact (hrest rest).idleWrite a v
  · exact resetEvent _

end State.OutcomeMatches

/-! ## Reachable states -/

theorem Reachable.inv (h : Reachable s) : s.Inv := by
  induction h with
  | start q draw moves hq => exact { State.resetWith_inv hq with }
  | next _ hst ih => exact ih.step hst

theorem Reachable.outcomeMatches (h : Reachable s) : s.OutcomeMatches := by
  induction h with
  | start q draw moves hq => exact (State.resetWith_outcomeMatches q).congr rfl rfl
  | next _ hst ih => exact ih.step hst

/-- Only the table's word decodes to `DEC` (rule R86). -/
theorem eq_of_decode_dec {w : Word} (h : decode w = .command .dec) : w = 0x00000002#32 := by
  unfold decode decodeFields at h
  split at h
  · rename_i hrsv
    split at h
    · cases h
    · split at h
      · rename_i hop
        have hhi := congrArg BitVec.toNat hrsv
        have hlo := congrArg BitVec.toNat hop
        simp only [Cmd32.ofWord, BitVec.extractLsb'_toNat, BitVec.toNat_ofNat,
          Nat.shiftRight_eq_div_pow] at hhi hlo
        have hw := w.isLt
        apply BitVec.eq_of_toNat_eq
        rw [BitVec.toNat_ofNat]
        omega
      · cases h
  · cases h

/-- Codes 1 to 3 are `DEC`'s alone (rule R180). -/
theorem eq_dec_of_outcomeAllowed {d : Decoded} {e : Err} (h : outcomeAllowed d e = true)
    (he : e.isDecodeError = true) : d = .command .dec := by
  match d with
  | .command .dec => rfl
  | .command .enc =>
    rcases Bool.or_eq_true_iff.1 h with hnone | hlength
    · cases eq_of_beq hnone; cases he
    · cases eq_of_beq hlength; cases he
  | .reserved _ => cases eq_of_beq h; cases he

/-! ## `CAP` (rule R29) -/

theorem State.memRead_locCAP (s : State) : s.memRead locCAP = s.cap.setWidth 32 := rfl

theorem State.idleWrite_locCAP (s : State) (v : Word) : s.idleWrite locCAP v = s := rfl

theorem State.memWrite_locCAP (s : State) (v : Word) : s.memWrite locCAP v = s := by
  cases hb : s.status.busy with
  | true => exact State.memWrite_busy hb _ v
  | false => exact (State.memWrite_idle hb _ v).trans (s.idleWrite_locCAP v)

theorem State.cap_engineTurn (h : s.engineTurn = .next t) : t.cap = s.cap := by
  cases hb : s.status.busy with
  | true =>
    obtain ⟨u, hu, -, -, -, -, hcap, -⟩ := s.complete_spec
    cases hu.symm.trans ((State.engineTurn_busy hb).symm.trans h)
    exact hcap
  | false =>
    cases (State.engineTurn_idle hb).symm.trans h
    rfl

theorem State.cap_idleWrite (s : State) (a : LocAddr) (v : Word) : (s.idleWrite a v).cap = s.cap := by
  rcases s.idleWrite_cases a v with e | ⟨-, e⟩ | e | e | ⟨i, -, e⟩ | ⟨i, -, e⟩ <;> rw [e] <;> rfl

theorem step_cap (h : step s = .next t) : t.cap = s.cap := by
  rcases step_cases s with ⟨rest, -, h'⟩ | ⟨a, rest, -, h'⟩ | ⟨a, v, rest, -, -, h'⟩ |
    ⟨a, v, rest, -, -, h'⟩ | ⟨rest, -, h'⟩
  case inl => exact State.cap_engineTurn (s := { s with schedule := rest }) (h'.symm.trans h)
  all_goals cases h'.symm.trans h
  · rfl
  · rfl
  · exact State.cap_idleWrite _ a v
  · rfl

/-! ## The statements -/

/-- Settles O47: each kind of move keeps the outcome in agreement with the latched word, and a step is one move. The
agreement needs nothing of `Inv`. -/
theorem stepKeepsOutcomeOfCommand : Obligations.StepKeepsOutcomeOfCommand := by
  unfold Obligations.StepKeepsOutcomeOfCommand
  intro s t _ h hst
  exact h.step hst

/-- Settles O48: after reset nothing is recorded and `CMD` is zero. -/
theorem resetOutcomeOfCommand : Obligations.ResetOutcomeOfCommand := by
  unfold Obligations.ResetOutcomeOfCommand
  exact State.resetWith_outcomeMatches

/-- Settles O6: legal flags are two of no outcome and six of an outcome; reading a word compares its fields. -/
theorem statusWords : Obligations.StatusWords := by
  unfold Obligations.StatusWords
  exact ⟨fun _ h => Status.toWord_mem_of_legal h,
    fun st w => Status.ofWord_eq_some_iff_eq_toWord w st⟩

/-- Settles O49: both invariants hold of every reachable state, and a recorded code stands beside `DONE`. -/
theorem reachableStatus : Obligations.ReachableStatus := by
  unfold Obligations.ReachableStatus
  intro s hs
  have hlegal := hs.inv.flags
  obtain ⟨hallowed, -⟩ := hs.outcomeMatches
  refine ⟨s.memRead_locSTATUS ▸ Status.toWord_mem_of_legal hlegal, fun herr => ?_⟩
  have hdone : s.status.done = true :=
    Status.done_of_err_ne_none hlegal fun hnone => by rw [hnone] at herr; cases herr
  exact eq_of_decode_dec (eq_dec_of_outcomeAllowed (hallowed hdone) herr)

/-- Settles O21: a success leaves the datapath's registers, a fault changes only `STATUS`. -/
theorem repackRegistersAfterCommand : Obligations.RepackRegistersAfterCommand := by
  unfold Obligations.RepackRegistersAfterCommand
  refine fun s t => ⟨fun h he => ?_, fun h he => ?_, fun i h he => ?_⟩
  · rw [eq_encDone_of_exec h he, ← s.length_byteOperand]
    exact ⟨rfl, (repackBytes_registers s.byteOperand).1⟩
  · obtain ⟨vs, hv, rfl⟩ := eq_decDone_of_exec h he
    rw [← s.length_textOperand, ← length_of_validateText hv]
    refine ⟨fun us hu => ?_, (repackGroups_registers vs).1⟩
    cases hv.symm.trans hu
    rfl
  · rw [eq_finish_of_exec h he]
    exact ⟨rfl, rfl⟩

/-- Settles O40: no move touches the capacity, and location 4 is read-only. -/
theorem capIsConstant : Obligations.CapIsConstant := by
  unfold Obligations.CapIsConstant
  refine ⟨fun _ _ => step_cap, fun s => ?_, State.memWrite_locCAP⟩
  calc (s.memRead locCAP).toNat
    _ = (s.cap.setWidth 32).toNat := by rw [s.memRead_locCAP]
    _ = s.cap.toNat := BitVec.toNat_setWidth_of_le (by decide)

/-- Settles O41: the buffers list nothing at reset, so every location reads as its draw. -/
theorem resetValues : Obligations.ResetValues := by
  unfold Obligations.ResetValues
  exact fun q => ⟨rfl, State.resetWith_status_toWord q, rfl, rfl, rfl, rfl, rfl, fun _ => rfl, fun _ => rfl, rfl⟩

end Sys2Proof.Machine
end

section
/-!
PROOFS of the family of `20_memory.md`: what a step is when it is a host's transaction (O33, O34), the location
space through the port (O37, O38, O39), and the calls of `Encode` and `Decode` through it (O50, O51). What the port
reads and stores at a location is said once per kind of location; a call is its operand in place, the command's own
meaning, and what the host makes of the status it reads.
-/

namespace Sys2Proof.Machine

variable {s : State} {a : LocAddr} {i : Nat}

/-! ## The steps of the host (rules R56, R57) -/

theorem step_of_read {rest : List Move} (h : s.schedule = .host (.read a) :: rest) :
    step s = .next (State.hostRead a { s with schedule := rest }) :=
  step_of_move h

/-- What an idle write stores does not depend on the moves to come. -/
theorem State.idleWrite_withSchedule (s : State) (a : LocAddr) (v : Word) (ms : List Move) :
    State.idleWrite a v { s with schedule := ms } = { s.idleWrite a v with schedule := ms } := by
  unfold State.idleWrite
  cases locate s.cap a <;> rfl

theorem step_of_write_idle {v : Word} {rest : List Move} (h : s.schedule = .host (.write a v) :: rest)
    (hb : s.status.busy = false) : step s = .next { s.idleWrite a v with schedule := rest } := by
  rw [step_of_move h, ← State.idleWrite_withSchedule]
  exact congrArg Host.Outcome.next (State.memWrite_idle (s := { s with schedule := rest }) hb a v)

theorem step_of_write_busy {v : Word} {rest : List Move} (h : s.schedule = .host (.write a v) :: rest)
    (hb : s.status.busy = true) : step s = .next { s with schedule := rest } := by
  rw [step_of_move h]
  exact congrArg Host.Outcome.next (State.memWrite_busy (s := { s with schedule := rest }) hb a v)

/-! ## What a location reads as, and what an idle write stores in it (rules R52, R56, R57) -/

theorem State.memRead_unmapped (h : locate s.cap a = .unmapped) : s.memRead a = 0#32 := by
  unfold State.memRead
  rw [h]

theorem State.memRead_bbuf (hi : i < s.bcap) (ha : a.toNat = 0x10000 + i) :
    s.memRead a = (s.bbufAt i).setWidth 32 := by
  unfold State.memRead
  rw [locate_bbuf hi ha]

theorem State.memRead_tbuf (hi : i < s.tcap) (ha : a.toNat = 0x20000 + i) :
    s.memRead a = (s.tbufAt i).setWidth 32 := by
  unfold State.memRead
  rw [locate_tbuf hi ha]

theorem State.idleWrite_unmapped (h : locate s.cap a = .unmapped) (v : Word) : s.idleWrite a v = s := by
  unfold State.idleWrite
  rw [h]

theorem State.idleWrite_bbuf (hi : i < s.bcap) (ha : a.toNat = 0x10000 + i) (v : Word) :
    s.idleWrite a v = s.setBbuf i (v.setWidth 8) := by
  unfold State.idleWrite
  rw [locate_bbuf hi ha]

theorem State.idleWrite_tbuf (hi : i < s.tcap) (ha : a.toNat = 0x20000 + i) (v : Word) :
    s.idleWrite a v = s.setTbuf i (v.setWidth 8) := by
  unfold State.idleWrite
  rw [locate_tbuf hi ha]

/-- `CAP` and the register numbers that name nothing store nothing. -/
theorem State.idleWrite_of_four_le (h4 : 4 ≤ a.toNat) (ha : a.toNat < 0x10000) (v : Word) :
    s.idleWrite a v = s := by
  rcases h4.eq_or_lt with h | h5
  · rw [show a = locCAP from BitVec.eq_of_toNat_eq h.symm, State.idleWrite_locCAP]
  · exact State.idleWrite_unmapped (locate_reg_unmapped h5 ha) v

/-- The bits a location does not store read back as zero (rules R56, R57). -/
theorem setWidth_setWidth_32 {n : Nat} (hn : n ≤ 32) (v : Word) :
    (v.setWidth n).setWidth 32 = v &&& BitVec.ofNat 32 (2 ^ n - 1) := by
  have hpow : 2 ^ n ≤ 2 ^ 32 := Nat.pow_le_pow_right (by decide) hn
  have hpos : 0 < 2 ^ n := Nat.pow_pos (by decide)
  apply BitVec.eq_of_toNat_eq
  rw [BitVec.toNat_setWidth_of_le hn, BitVec.toNat_setWidth, BitVec.toNat_and, BitVec.toNat_ofNat,
    Nat.mod_eq_of_lt (by omega : 2 ^ n - 1 < 2 ^ 32), Nat.and_two_pow_sub_one_eq_mod]

theorem State.memRead_idleWrite_bbuf (hi : i < s.bcap) (ha : a.toNat = 0x10000 + i) (v : Word) :
    (s.idleWrite a v).memRead a = v &&& 0x000000FF#32 := by
  rw [State.idleWrite_bbuf hi ha, State.memRead_bbuf (s := s.setBbuf i _) hi ha, State.setBbuf_bbufAt,
    if_pos rfl]
  exact setWidth_setWidth_32 (by decide) v

theorem State.memRead_idleWrite_tbuf (hi : i < s.tcap) (ha : a.toNat = 0x20000 + i) (v : Word) :
    (s.idleWrite a v).memRead a = v &&& 0x000000FF#32 := by
  rw [State.idleWrite_tbuf hi ha, State.memRead_tbuf (s := s.setTbuf i _) hi ha, State.setTbuf_tbufAt,
    if_pos rfl]
  exact setWidth_setWidth_32 (by decide) v

/-! ## The result of a successful command, as the operand of the other one -/

/-- A sequence is its length and its elements by index. -/
theorem map_range_eq {α : Type} {l : List α} {n : Nat} {f : Nat → α} (hn : n = l.length)
    (h : ∀ i c, l[i]? = some c → f i = c) : (List.range n).map f = l := by
  apply List.ext_getElem (by simp [hn])
  intro i _ hi
  rw [List.getElem_map, List.getElem_range]
  exact h i _ (List.getElem?_eq_getElem hi)

/-- After a successful `ENC` `TBUF` holds the encoding (rule R118). -/
theorem encDone_textOperand (h : s.blen.toNat ≤ s.bcap) :
    (encDone s).textOperand = b32Encode s.byteOperand := by
  refine map_range_eq (encDone_tlen_toNat s h) fun i c hc => ?_
  show (s.writeText (b32Encode s.byteOperand)).tbufAt i = c
  rw [State.writeText_tbufAt, List.getD, hc]
  rfl

/-- After a successful `DEC` `BBUF` holds the decoded bytes (rule R142). -/
theorem decDone_byteOperand {vs : List Group} (h : s.tlen.toNat ≤ s.tcap)
    (hv : validateText s.textOperand = .ok vs) : (decDone vs s).byteOperand = groupBytes vs := by
  refine map_range_eq (decDone_blen_toNat s vs h hv) fun i c hc => ?_
  show (s.writeBytes (groupBytes vs)).bbufAt i = c
  rw [State.writeBytes_bbufAt, List.getD, hc]
  rfl

/-! ## What the host makes of a finished command (rules R168, R182) -/

section
variable {lenLoc : LocAddr} {loc : Nat → LocAddr} {e : Err}

/-- The host reads the status word of a finished command, then takes the result. -/
def State.report (lenLoc : LocAddr) (loc : Nat → LocAddr) (s : State) :
    Host.Outcome (CallResult × State) Fault Refusal :=
  (s.hostRead locSTATUS).takeResult lenLoc loc

theorem State.report_of_length (h : s.status = { busy := false, done := true, err := .length }) :
    s.report lenLoc loc = .next (.length, s.hostRead locSTATUS) := by
  obtain ⟨-, -, hlength, -⟩ :=
    State.takeResult_of_status lenLoc loc (s.hostRead locSTATUS) .length (congrArg Status.toWord h)
  exact hlength rfl

theorem State.report_of_decodeError (h : s.status = { busy := false, done := true, err := e })
    (he : e.isDecodeError = true) : s.report lenLoc loc = .next (.decodeError, s.hostRead locSTATUS) := by
  obtain ⟨-, hdecode, -, -⟩ :=
    State.takeResult_of_status lenLoc loc (s.hostRead locSTATUS) e (congrArg Status.toWord h)
  exact hdecode he

theorem State.report_of_none (h : s.status = { busy := false, done := true, err := .none }) :
    s.report lenLoc loc = (s.hostRead locSTATUS).readValue lenLoc loc := by
  obtain ⟨hnone, -, -, -⟩ :=
    State.takeResult_of_status lenLoc loc (s.hostRead locSTATUS) .none (congrArg Status.toWord h)
  exact hnone rfl

/-- A call whose operand writes end in an idle state is the command's own meaning there, then the report. -/
theorem State.call_of_operand {t : State} {ws : List Move} {w : Word} {c : Instr}
    (hws : s.doMoves ws = .next t) (ht : t.status.busy = false) (hd : decode w = .command c) (k : Nat) :
    ∃ r, s.call ws (lineWR locCMD w) k lenLoc loc =
      andThen (exec c { t.acceptCommand w with reply := r }) (State.report lenLoc loc) := by
  unfold State.call
  rw [hws]
  exact t.command_of_idle ht w k lenLoc loc hd

end

/-! ## What a call reports, by the operand the command finds -/

/-- After a successful `ENC` the host reads the text. -/
theorem encDone_report (h : s.blen.toNat ≤ s.bcap) :
    ∃ t, (encDone s).report locTLEN locTBUF = .next (.value (b32Encode s.byteOperand), t) ∧
      t.status.busy = false ∧ t.schedule = s.schedule := by
  have hfits : (encDone s).tlen.toNat ≤ s.tcap :=
    (encDone_tlen_toNat s h).trans_le (State.length_b32Encode_le_tcap h)
  obtain ⟨t, ht, hstatus, hsched⟩ :=
    tbufPort.readValue_spec ((encDone s).hostRead locSTATUS) hfits fun _ _ => rfl
  refine ⟨t, ?_, by rw [hstatus]; rfl, hsched⟩
  rw [State.report_of_none rfl, ← encDone_textOperand h]
  exact ht

/-- After a successful `DEC` the host reads the bytes. -/
theorem decDone_report {vs : List Group} (h : s.tlen.toNat ≤ s.tcap)
    (hv : validateText s.textOperand = .ok vs) :
    ∃ t, (decDone vs s).report locBLEN locBBUF = .next (.value (groupBytes vs), t) ∧
      t.status.busy = false ∧ t.schedule = s.schedule := by
  have hfits : (decDone vs s).blen.toNat ≤ s.bcap :=
    (decDone_blen_toNat s vs h hv).trans_le (State.length_groupBytes_le_bcap h hv)
  obtain ⟨t, ht, hstatus, hsched⟩ :=
    bbufPort.readValue_spec ((decDone vs s).hostRead locSTATUS) hfits fun _ _ => rfl
  refine ⟨t, ?_, by rw [hstatus]; rfl, hsched⟩
  rw [State.report_of_none rfl, ← decDone_byteOperand h hv]
  exact ht

/-- The causes `Decode` gives are those the host reports as `DecodeError` (rule R182). -/
theorem isDecodeError_of_validateText {x : List Byte} {c : Cause} (h : validateText x = .error c) :
    c.err.isDecodeError = true := by
  rcases cause_of_validateText h with rfl | rfl | rfl <;> rfl

/-- A call's result on a source buffer of `cap` locations: `f`'s, or `Length` (rule R165). -/
def resultIfFits (f : List Byte → CallResult) (cap : Nat) (source : List Byte) : CallResult :=
  if source.length ≤ cap then f source else .length

/-- What a call of `Encode` reports on bytes that fit. -/
def encodeResult (b : List Byte) : CallResult := .value (b32Encode b)

/-- What a call of `Decode` reports on a text that fits. -/
def decodeResult (x : List Byte) : CallResult :=
  match b32Decode x with
  | .ok o   => .value o
  | .fail _ => .decodeError

section
variable {f : List Byte → CallResult} {cap : Nat} {b c : List Byte}

theorem resultIfFits_of_le (h : b.length ≤ cap) : resultIfFits f cap b = f b := if_pos h

theorem resultIfFits_of_lt (h : cap < b.length) : resultIfFits f cap b = .length :=
  if_neg (Nat.not_le.2 h)

/-- Operands above the capacity are not told apart. -/
theorem resultIfFits_congr (hlen : b.length = c.length) (h : c.length ≤ cap → b = c) :
    resultIfFits f cap b = resultIfFits f cap c := by
  rcases Nat.lt_or_ge cap c.length with hlong | hfits
  · rw [resultIfFits_of_lt hlong, resultIfFits_of_lt (hlen ▸ hlong)]
  · rw [h hfits]

end

theorem decodeResult_of_ok {x o : List Byte} (h : b32Decode x = .ok o) : decodeResult x = .value o := by
  unfold decodeResult
  rw [h]

theorem decodeResult_of_fail {x : List Byte} {c : Cause} (h : b32Decode x = .fail c) :
    decodeResult x = .decodeError := by
  unfold decodeResult
  rw [h]

/-- Whatever `ENC` does, the host's report is the result of the operand it finds. -/
theorem exec_enc_report (s : State) :
    ∃ t, andThen (exec .enc s) (State.report locTLEN locTBUF) =
        .next (resultIfFits encodeResult s.bcap s.byteOperand, t) ∧
      t.status.busy = false ∧ t.schedule = s.schedule := by
  rcases exec_enc_cases s with ⟨h, he⟩ | ⟨h, he⟩ <;> rw [he, andThen_next]
  · rw [resultIfFits_of_lt (s.length_byteOperand.symm ▸ h)]
    exact ⟨_, State.report_of_length rfl, rfl, rfl⟩
  · rw [resultIfFits_of_le (s.length_byteOperand.trans_le h)]
    exact encDone_report h

/-- Whatever `DEC` does, the host's report is the result of the operand it finds. -/
theorem exec_dec_report (s : State) :
    ∃ t, andThen (exec .dec s) (State.report locBLEN locBBUF) =
        .next (resultIfFits decodeResult s.tcap s.textOperand, t) ∧
      t.status.busy = false ∧ t.schedule = s.schedule := by
  rcases exec_dec_cases s with ⟨h, he⟩ | ⟨h, c, hv, he⟩ | ⟨h, vs, hv, he⟩ <;> rw [he, andThen_next]
  · rw [resultIfFits_of_lt (s.length_textOperand.symm ▸ h)]
    exact ⟨_, State.report_of_length rfl, rfl, rfl⟩
  · rw [resultIfFits_of_le (s.length_textOperand.trans_le h), decodeResult_of_fail (b32Decode_of_error hv)]
    exact ⟨_, State.report_of_decodeError rfl (isDecodeError_of_validateText hv), rfl, rfl⟩
  · rw [resultIfFits_of_le (s.length_textOperand.trans_le h), decodeResult_of_ok (b32Decode_of_ok hv)]
    exact decDone_report h hv

/-! ## A whole call (rule R168) -/

/-- After the operand writes the source buffer gives the result of the operand, whether it fits or not. -/
theorem BufferPort.doMoves_result {loc : Nat → LocAddr} {lenLoc : LocAddr} {at' : State → Nat → Byte}
    {len : State → Len} {cap : Quanta → Nat} (P : BufferPort loc lenLoc at' len cap)
    (f : List Byte → CallResult) {b : List Byte} {ws : List Move} (hs : s.status.busy = false)
    (hb : b.length < 65536)
    (hp : ws.Perm (writesFrom loc 0 b ++ [lineWR lenLoc (BitVec.ofNat 32 b.length)])) :
    ∃ t, s.doMoves ws = .next t ∧ t.status.busy = false ∧ t.schedule = s.schedule ∧
      resultIfFits f (cap t.cap) ((List.range (len t).toNat).map (at' t)) =
        resultIfFits f (cap s.cap) b := by
  obtain ⟨t, hws, hstatus, hcap, hsched, hlen, hat⟩ := P.doMoves_perm s b ws hs hb hp
  refine ⟨t, hws, hstatus ▸ hs, hsched, ?_⟩
  rw [hcap]
  refine resultIfFits_congr (by simpa using hlen) fun hfits => map_range_eq hlen fun i c hc => ?_
  obtain ⟨hi, -⟩ := List.getElem?_eq_some_iff.1 hc
  exact hat i c (hi.trans_le hfits) hc

/-- A call of `Encode` begun while idle reports the result of its operand. -/
theorem callEncode_spec {b : List Byte} {ws : List Move} (k : Nat) (hs : s.status.busy = false)
    (hb : b.length < 65536) (hp : ws.Perm (lineLDB b)) :
    ∃ t, callEncode ws k s = .next (resultIfFits encodeResult s.bcap b, t) ∧
      t.status.busy = false ∧ t.schedule = s.schedule := by
  obtain ⟨u, hws, hu, hsched, hsource⟩ := bbufPort.doMoves_result encodeResult hs hb hp
  obtain ⟨r, hcall⟩ := State.call_of_operand hws hu (by decide : decode 1#32 = .command .enc) k
  obtain ⟨t, ht, hidle, hsched'⟩ := exec_enc_report { u.acceptCommand 1#32 with reply := r }
  exact ⟨t, hsource ▸ hcall.trans ht, hidle, hsched'.trans hsched⟩

/-- A call of `Decode` begun while idle reports the result of its operand. -/
theorem callDecode_spec {x : List Byte} {ws : List Move} (k : Nat) (hs : s.status.busy = false)
    (hx : x.length < 65536) (hp : ws.Perm (lineLDT x)) :
    ∃ t, callDecode ws k s = .next (resultIfFits decodeResult s.tcap x, t) ∧
      t.status.busy = false ∧ t.schedule = s.schedule := by
  obtain ⟨u, hws, hu, hsched, hsource⟩ := tbufPort.doMoves_result decodeResult hs hx hp
  obtain ⟨r, hcall⟩ := State.call_of_operand hws hu (by decide : decode 2#32 = .command .dec) k
  obtain ⟨t, ht, hidle, hsched'⟩ := exec_dec_report { u.acceptCommand 2#32 with reply := r }
  exact ⟨t, hsource ▸ hcall.trans ht, hidle, hsched'.trans hsched⟩

/-! ## The statements -/

/-- Settles O33: while busy a read and a dropped write are the only steps that leave the block busy. -/
theorem busyFreezesBlock : Obligations.BusyFreezesBlock := by
  unfold Obligations.BusyFreezesBlock
  intro s t hst hs ht
  rcases step_cases s with ⟨rest, -, h⟩ | ⟨a, rest, -, h⟩ | ⟨a, v, rest, -, -, h⟩ |
    ⟨a, v, rest, -, hidle, h⟩ | ⟨rest, -, h⟩
  · obtain ⟨u, hu, -, hidle⟩ := State.engineTurn_spec { s with schedule := rest }
    cases (hu.symm.trans h.symm).trans hst
    exact absurd (hidle.symm.trans ht) nofun
  all_goals cases h.symm.trans hst
  · exact rfl
  · exact rfl
  · exact absurd (hidle.symm.trans hs) nofun
  · exact absurd ht nofun

/-- Settles O34: the engine's turn answers a next state, and every other move is one. -/
theorem stepAlwaysContinues : Obligations.StepAlwaysContinues := by
  unfold Obligations.StepAlwaysContinues
  intro s
  rcases step_cases s with ⟨rest, -, h⟩ | ⟨a, rest, -, h⟩ | ⟨a, v, rest, -, -, h⟩ |
    ⟨a, v, rest, -, -, h⟩ | ⟨rest, -, h⟩
  · obtain ⟨t, ht, -⟩ := State.engineTurn_spec { s with schedule := rest }
    exact ⟨t, h.trans ht⟩
  all_goals exact ⟨_, h⟩

/-- Settles O37: the value is the read location's, by the kind of location the address names. -/
theorem hostReadReturns : Obligations.HostReadReturns := by
  unfold Obligations.HostReadReturns
  intro s a rest hs
  refine ⟨s.memRead a, step_of_read hs, ?_, ?_, ?_, ?_, ?_, ?_, ?_, ?_, ?_, ?_⟩
  · rintro rfl
    rfl
  · rintro rfl
    calc s.status.toWord.toNat
      _ = 4 * s.status.err.code.toNat + 2 * s.status.done.toNat + s.status.busy.toNat :=
        Status.toNat_toWord s.status
      _ = s.status.err.code.toNat * 4 + s.status.done.toNat * 2 + s.status.busy.toNat := by omega
  · rintro rfl
    exact BitVec.toNat_setWidth_of_le (by decide)
  · rintro rfl
    exact BitVec.toNat_setWidth_of_le (by decide)
  · rintro rfl
    exact BitVec.toNat_setWidth_of_le (by decide)
  · exact fun h5 ha => State.memRead_unmapped (locate_reg_unmapped h5 ha)
  · intro i hi ha
    rw [State.memRead_bbuf hi ha, BitVec.toNat_setWidth_of_le (by decide)]
  · exact fun hlo hhi => State.memRead_unmapped (locate_bbuf_unmapped hlo hhi)
  · intro i hi ha
    rw [State.memRead_tbuf hi ha, BitVec.toNat_setWidth_of_le (by decide)]
  · exact fun hlo => State.memRead_unmapped (locate_tbuf_unmapped hlo)

/-- Settles O38: dropped while busy; while idle, by the kind of location the address names. -/
theorem hostWriteStores : Obligations.HostWriteStores := by
  unfold Obligations.HostWriteStores
  intro s a v rest hs
  cases hb : s.status.busy with
  | true => exact ⟨_, step_of_write_busy hs hb, fun _ => rfl, nofun⟩
  | false =>
    refine ⟨_, step_of_write_idle hs hb, nofun, fun _ => ⟨?_, ?_, ?_, ?_, ?_, ?_, ?_, ?_, ?_⟩⟩
    · rintro rfl
      rfl
    · rintro rfl
      rfl
    · rintro rfl
      rfl
    · rintro rfl
      rfl
    · intro h4 ha
      rw [State.idleWrite_of_four_le h4 ha]
    · intro i hi ha
      rw [State.idleWrite_bbuf hi ha]
      exact ⟨rfl, (s.setBbuf_bbufAt i i _).trans (if_pos rfl),
        fun j hj => (s.setBbuf_bbufAt i j _).trans (if_neg hj)⟩
    · intro hlo hhi
      rw [State.idleWrite_unmapped (locate_bbuf_unmapped hlo hhi)]
    · intro i hi ha
      rw [State.idleWrite_tbuf hi ha]
      exact ⟨rfl, (s.setTbuf_tbufAt i i _).trans (if_pos rfl),
        fun j hj => (s.setTbuf_tbufAt i j _).trans (if_neg hj)⟩
    · intro hlo
      rw [State.idleWrite_unmapped (locate_tbuf_unmapped hlo)]

/-- Settles O39: the read comes next, and a location reads back the bits it stores. -/
theorem readSeesIdleWrite : Obligations.ReadSeesIdleWrite := by
  unfold Obligations.ReadSeesIdleWrite
  intro s a v rest hb hs
  refine ⟨_, _, step_of_write_idle hs hb, step_of_read rfl, ?_, ?_⟩
  · rintro (rfl | rfl)
    · exact congrArg some (setWidth_setWidth_32 (n := 16) (by decide) v)
    · exact congrArg some (setWidth_setWidth_32 (n := 16) (by decide) v)
  · rintro ⟨i, ⟨hi, ha⟩ | ⟨hi, ha⟩⟩
    · exact congrArg some (State.memRead_idleWrite_bbuf hi ha v)
    · exact congrArg some (State.memRead_idleWrite_tbuf hi ha v)

/-- Settles O50: the operand writes put the bytes in place, and the call reports what `ENC` makes of them. -/
theorem callEncodeReturnsText : Obligations.CallEncodeReturnsText := by
  unfold Obligations.CallEncodeReturnsText
  intro s b writes k hs hb hperm
  obtain ⟨t, hcall, hidle, hsched⟩ := callEncode_spec k hs hb hperm
  exact ⟨t, hidle, hsched, hcall⟩

/-- Settles O51: the operand writes put the text in place, and the call reports what `DEC` makes of it. -/
theorem callDecodeReturnsBytes : Obligations.CallDecodeReturnsBytes := by
  unfold Obligations.CallDecodeReturnsBytes
  intro s x writes k hs hx hperm
  obtain ⟨t, hcall, hidle, hsched⟩ := callDecode_spec k hs hx hperm
  refine ⟨t, _, hidle, hsched, hcall, resultIfFits_of_lt, fun hfits o ho => ?_, fun hfits c hc => ?_⟩ <;>
    rw [resultIfFits_of_le hfits]
  · exact decodeResult_of_ok ho
  · exact decodeResult_of_fail hc

end Sys2Proof.Machine
end

section
/-!
PROOFS of the family of `30_encoding.md`: the decoder against the opcode table (O1, O2, O3, O29), the symbol classes
and the alphabet (O4, O5), canonical text (O16), and the end of a busy block (O35). A word decodes to a command
exactly when it is the command's word; a text is canonical exactly when encoding its bytes gives its shape and its
bits back.
-/

namespace Sys2Proof

/-! ## The command word (rules R81, R86, R87) -/

/-- A word is its two fields, side by side. -/
theorem Cmd32.toWord_ofWord (w : Word) : (Cmd32.ofWord w).toWord = w := by
  unfold Cmd32.toWord Cmd32.ofWord
  rw [BitVec.extractLsb'_append_extractLsb'_eq_extractLsb' (by decide), BitVec.extractLsb'_eq_self]

/-- The decoder reads a command from the fields of that command only. -/
theorem decodeFields_eq_command_iff (c : Cmd32) (i : Instr) :
    decodeFields c = .command i ↔ c = encodeFields i := by
  obtain ⟨rsv, op⟩ := c
  by_cases hrsv : rsv = 0#30
  · subst hrsv
    cases i with
    | enc => revert op; decide
    | dec => revert op; decide
  · have hreserved : decodeFields { rsv, op } = .reserved .rsvNotZero := if_neg hrsv
    rw [hreserved]
    cases i <;> simp [encodeFields, hrsv]

theorem Cmd32.ofWord_encode (i : Instr) : Cmd32.ofWord (encode i) = encodeFields i := by
  cases i with
  | enc =>
    obtain ⟨-, hfields, -⟩ := Laws.CommandWord.enc
    exact hfields
  | dec =>
    obtain ⟨-, hfields, -⟩ := Laws.CommandWord.dec
    exact hfields

/-- A word decodes to a command exactly when it is that command's word. -/
theorem decode_eq_command_iff (w : Word) (i : Instr) : decode w = .command i ↔ w = encode i := by
  unfold decode
  rw [decodeFields_eq_command_iff]
  constructor
  · intro h
    calc w
      _ = (Cmd32.ofWord w).toWord := (Cmd32.toWord_ofWord w).symm
      _ = encode i := congrArg Cmd32.toWord h
  · rintro rfl
    exact Cmd32.ofWord_encode i

theorem decode_eq_enc_iff (w : Word) : decode w = .command .enc ↔ w = 0x00000001#32 :=
  decode_eq_command_iff w .enc

theorem decode_eq_dec_iff (w : Word) : decode w = .command .dec ↔ w = 0x00000002#32 :=
  decode_eq_command_iff w .dec

/-- The reserved encodings are the words of no command (rule R88). -/
theorem decode_reserved_iff (w : Word) :
    (∃ why, decode w = .reserved why) ↔ w ≠ 0x00000001#32 ∧ w ≠ 0x00000002#32 := by
  rw [Ne, Ne, ← decode_eq_enc_iff, ← decode_eq_dec_iff]
  cases decode w with
  | command i => cases i <;> simp
  | reserved why => simp

end Sys2Proof

namespace Sys2Proof.Machine

/-! ## The symbol classes (rule R83) -/

section
variable {c : Byte}

theorem symIndex_upper (h : 0x41 ≤ c.toNat ∧ c.toNat ≤ 0x5A) :
    symIndex c = .data (BitVec.ofNat 5 (c.toNat - 0x41)) :=
  if_pos h

theorem symIndex_digit (h : 0x32 ≤ c.toNat ∧ c.toNat ≤ 0x37) :
    symIndex c = .data (BitVec.ofNat 5 (c.toNat - 0x32 + 26)) := by
  unfold symIndex
  rw [if_neg (by omega), if_pos h]

theorem symIndex_padSymbol : symIndex padSymbol = .pad := rfl

theorem symIndex_outside (hupper : ¬(0x41 ≤ c.toNat ∧ c.toNat ≤ 0x5A))
    (hdigit : ¬(0x32 ≤ c.toNat ∧ c.toNat ≤ 0x37)) (hpad : c ≠ padSymbol) : symIndex c = .none := by
  unfold symIndex
  rw [if_neg hupper, if_neg hdigit, if_neg hpad]

theorem symIndex_eq_data_iff (v : Group) : symIndex c = .data v ↔ c = alpha v :=
  ⟨eq_alpha_of_symIndex c v, fun h => h ▸ symIndex_alpha v⟩

end

/-- The codes outside the alphabet (rule R83): all but 26 letters, 6 digits and `=`. -/
theorem count_symIndex_none :
    ((List.range 256).filter fun n => symIndex (BitVec.ofNat 8 n) == .none).length = 223 := by
  decide +kernel

/-! ## Canonical text (rules R84, R147) -/

/-- The slices of a bit string, each read as a value, have the bits they were cut from. -/
theorem flatMap_msbBits_slices {w n : Nat} {S : List Bool} (h : w * n ≤ S.length) :
    ((slices w n S).map fun x => BitVec.ofNat w (bitsVal x)).flatMap msbBits = S.take (w * n) := by
  induction n generalizing S with
  | zero => simp [slices]
  | succ n ih =>
    rw [Nat.mul_succ] at h
    have hfirst : (S.take w).length = w := List.length_take_of_le (by omega)
    have hrest : w * n ≤ (S.drop w).length := by rw [List.length_drop]; omega
    rw [slices_succ, List.map_cons, List.flatMap_cons, msbBits_ofNat_bitsVal _ hfirst, ih hrest,
      Nat.mul_succ, Nat.add_comm, List.take_add]

/-- The bytes of an index sequence have its bits, up to the discarded ones (rules R139, R140). -/
theorem byteBits_groupBytes (vs : List Group) :
    byteBits (groupBytes vs) = (groupBits vs).take (8 * (5 * vs.length / 8)) :=
  flatMap_msbBits_slices (by rw [length_groupBits]; omega)

/-- Indices cut out of the bits of indices are the indices. -/
theorem map_slices_groupBits (vs : List Group) :
    (slices 5 vs.length (groupBits vs)).map (fun x => BitVec.ofNat 5 (bitsVal x)) = vs := by
  have hslices := slices_flatMap msbBits length_msbBits vs []
  rw [List.append_nil] at hslices
  unfold groupBits
  rw [hslices, List.map_map]
  exact List.map_id'' ofNat_bitsVal_msbBits vs

theorem groupBits_injective {us vs : List Group} (h : groupBits us = groupBits vs) : us = vs := by
  have hlen : us.length = vs.length := by
    have := congrArg List.length h
    rw [length_groupBits, length_groupBits] at this
    omega
  rw [← map_slices_groupBits us, ← map_slices_groupBits vs, h, hlen]

/-- `n` bytes are what their groups hold whole: the fill is shorter than a group (rule R114). -/
theorem mul_groupCount_div (n : Nat) : 5 * groupCount n / 8 = n := by
  have hle := le_groupCount n
  have hlt := groupCount_lt n
  omega

/-- The shapes of rule R84 are those of an encoding of the bytes the symbols hold whole. -/
theorem canonicalShape_iff (d p : Nat) :
    canonicalShape d p = true ↔
      groupCount (5 * d / 8) = d ∧ padTable (8 * (5 * d / 8) % 40) = p := by
  have hr : d % 8 < 8 := Nat.mod_lt _ (by decide)
  have hbytes : 5 * d / 8 = 5 * (d / 8) + 5 * (d % 8) / 8 := by omega
  have hbits : 8 * (5 * d / 8) % 40 = 8 * (5 * (d % 8) / 8) := by omega
  have hcount : groupCount (5 * d / 8) = d ↔ groupCount (5 * (d % 8) / 8) = d % 8 := by
    unfold groupCount; omega
  rw [hbits, hcount, canonicalShape]
  generalize d % 8 = r at hr
  interval_cases r <;> simp [groupCount, padTable, eq_comm]

/-- What `isCanonical` asks of a text that passes the checks. -/
theorem isCanonical_iff (t : List Byte) :
    isCanonical t = true ↔ ∃ vs, validateText t = .ok vs ∧ t.length % 8 = 0 ∧
      canonicalShape vs.length (trailingPads t) = true ∧
      ∀ b ∈ (groupBits vs).drop (8 * (5 * vs.length / 8)), b = false := by
  unfold isCanonical
  cases validateText t with
  | error c => simp
  | ok vs => simp [and_assoc]

theorem padTable_mem_allowedPads (m : Nat) : padTable m ∈ allowedPads := by
  unfold padTable
  split <;> decide

/-- `Decode` finds in an encoding the groups it was made of. -/
theorem validateText_b32Encode (b : List Byte) : validateText (b32Encode b) = .ok (byteGroups b) :=
  validateText_shape _ (padTable_mem_allowedPads _)

theorem trailingPads_b32Encode (b : List Byte) :
    trailingPads (b32Encode b) = padTable (8 * b.length % 40) := by
  unfold b32Encode
  rw [trailingPads_append_replicate, trailingPads_map_alpha, Nat.add_zero]

/-- Every encoding is canonical. -/
theorem isCanonical_b32Encode (b : List Byte) : isCanonical (b32Encode b) = true := by
  refine (isCanonical_iff _).2 ⟨_, validateText_b32Encode b, ?_, ?_, ?_⟩
  · rw [length_b32Encode]
    exact Nat.mul_mod_right 8 _
  · rw [canonicalShape_iff, length_byteGroups, mul_groupCount_div, trailingPads_b32Encode]
    exact ⟨rfl, rfl⟩
  · intro x hx
    rw [length_byteGroups, mul_groupCount_div, groupBits_byteGroups, ← length_byteBits b,
      List.drop_left] at hx
    exact List.eq_of_mem_replicate hx

/-- Indices whose discarded bits are zero are the groups of their bytes, when those are as many. -/
theorem byteGroups_groupBytes {vs : List Group} (hcount : groupCount (5 * vs.length / 8) = vs.length)
    (hzero : ∀ b ∈ (groupBits vs).drop (8 * (5 * vs.length / 8)), b = false) :
    byteGroups (groupBytes vs) = vs := by
  apply groupBits_injective
  have hfill : (groupBits vs).drop (8 * (5 * vs.length / 8)) =
      List.replicate (5 * vs.length - 8 * (5 * vs.length / 8)) false :=
    List.eq_replicate_iff.2 ⟨by rw [List.length_drop, length_groupBits], hzero⟩
  calc groupBits (byteGroups (groupBytes vs))
    _ = (groupBits vs).take (8 * (5 * vs.length / 8)) ++
          List.replicate (5 * vs.length - 8 * (5 * vs.length / 8)) false := by
        rw [groupBits_byteGroups, byteBits_groupBytes, length_groupBytes, hcount]
    _ = groupBits vs := by rw [← hfill, List.take_append_drop]

/-- A canonical text is the encoding of what it decodes to. -/
theorem b32Encode_groupBytes {x : List Byte} {vs : List Group} (hv : validateText x = .ok vs)
    (h : isCanonical x = true) : b32Encode (groupBytes vs) = x := by
  obtain ⟨us, hus, -, hshape, hzero⟩ := (isCanonical_iff x).1 h
  cases hv.symm.trans hus
  obtain ⟨hcount, hpad⟩ := (canonicalShape_iff _ _).1 hshape
  obtain ⟨hx, -⟩ := shape_of_validateText hv
  unfold b32Encode
  rw [byteGroups_groupBytes hcount hzero, length_groupBytes, hpad, ← hx]

/-! ## Completions (rules R88, R163, R164) -/

/-- At the engine's turn a busy block with a reserved word latched records `BadCmd` (rule R88). -/
theorem step_of_reserved {s : State} {rest : List Move} {why : Reserved}
    (hs : s.schedule = .engine :: rest) (hb : s.status.busy = true) (hd : decode s.cmd = .reserved why) :
    step s = .next (State.finish .badCmd { s with schedule := rest }) := by
  rw [step_of_move hs]
  refine (State.engineTurn_busy (s := { s with schedule := rest }) hb).trans ?_
  rcases State.complete_cases { s with schedule := rest } with ⟨-, -, h⟩ | ⟨i, hi, -⟩
  · exact h
  · cases hd.symm.trans hi

/-- The engine's turns, reached when the schedule is used up, end every command in flight. -/
theorem exists_run_idle (ms : List Move) : ∀ s : State, s.schedule = ms →
    ∃ k t, k ≤ ms.length + 1 ∧ Sys2Proof.core.run k s = .next t ∧ t.status.busy = false := by
  induction ms with
  | nil =>
    intro s hs
    obtain ⟨t, ht, -, hidle⟩ := s.engineTurn_spec
    exact ⟨1, t, le_rfl, run_succ_of_step ((step_of_empty hs).trans ht) 0, hidle⟩
  | cons m ms ih =>
    intro s hs
    obtain ⟨t, ht⟩ := stepAlwaysContinues s
    have htail : t.schedule = ms := by rw [step_schedule s t ht, hs, List.tail_cons]
    obtain ⟨k, u, hk, hrun, hidle⟩ := ih t htail
    exact ⟨k + 1, u, Nat.succ_le_succ hk, (run_succ_of_step ht k).trans hrun, hidle⟩

/-! ## The statements -/

/-- Settles O1: decoding compares the two fields, and a word is its fields. -/
theorem decodeEncodeAgree : Obligations.DecodeEncodeAgree := by
  unfold Obligations.DecodeEncodeAgree
  exact fun i w _ => decode_eq_command_iff w i

/-- Settles O2: the mask keeps the whole word, and the rows are the words of the two commands. -/
theorem decoderMatchesOpcodeTable : Obligations.DecoderMatchesOpcodeTable := by
  unfold Obligations.DecoderMatchesOpcodeTable
  intro w
  rw [show w &&& 0xFFFFFFFF#32 = w from BitVec.and_allOnes]
  exact ⟨decode_eq_enc_iff w, decode_eq_dec_iff w, decode_reserved_iff w⟩

/-- Settles O3: eight closed words, by evaluation of the decoder. -/
theorem writtenOutWordsDecode : Obligations.WrittenOutWordsDecode := by
  unfold Obligations.WrittenOutWordsDecode
  decide

/-- Settles O4: one lemma per class, and a count over the 256 codes. -/
theorem symbolClasses : Obligations.SymbolClasses := by
  unfold Obligations.SymbolClasses
  refine ⟨fun c => ⟨symIndex_upper, symIndex_digit, ?_, symIndex_outside⟩, count_symIndex_none⟩
  rintro rfl
  exact symIndex_padSymbol

/-- Settles O5: the table by evaluation; `INDEX` and `ALPHA` undo each other. -/
theorem alphabetTable : Obligations.AlphabetTable := by
  unfold Obligations.AlphabetTable
  exact ⟨by decide, fun _ => symIndex_eq_data_iff, alpha_ne_padSymbol⟩

/-- Settles O16: encodings are canonical, and a canonical text is the encoding of its bytes. -/
theorem encodeOfDecodeIffCanonical : Obligations.EncodeOfDecodeIffCanonical := by
  unfold Obligations.EncodeOfDecodeIffCanonical
  refine ⟨fun x o ho => ⟨?_, fun hcanon => ?_⟩, fun x => ⟨fun hcanon => ?_, ?_⟩⟩
  · rintro rfl
    exact isCanonical_b32Encode o
  · obtain ⟨vs, hv, -⟩ := (isCanonical_iff x).1 hcanon
    cases (b32Decode_of_ok hv).symm.trans ho
    exact b32Encode_groupBytes hv hcanon
  · obtain ⟨vs, hv, -⟩ := (isCanonical_iff x).1 hcanon
    exact ⟨groupBytes vs, (b32Encode_groupBytes hv hcanon).symm⟩
  · rintro ⟨b, rfl⟩
    exact isCanonical_b32Encode b

/-- Settles O29: the write is accepted like any other, and the engine's turn finds a reserved word. -/
theorem reservedWordFaults : Obligations.ReservedWordFaults := by
  unfold Obligations.ReservedWordFaults
  intro s v rest henc hdec hidle hs
  obtain ⟨why, hd⟩ := (decode_reserved_iff v).2 ⟨henc, hdec⟩
  have haccept : step s = .next { s.acceptCommand v with schedule := .engine :: rest } :=
    step_of_write_idle hs hidle
  exact ⟨_, _, haccept, rfl, rfl, step_of_reserved rfl rfl hd, rfl⟩

/-- Settles O35: every step uses up one move, and the turn after the last is the engine's. -/
theorem busyEnds : Obligations.BusyEnds := by
  unfold Obligations.BusyEnds
  exact fun s _ => exists_run_idle s.schedule s rfl

end Sys2Proof.Machine
end

section
/-!
PROOFS of the family of `40_encode.md`: the shape of an encoding (O7), its closed form (O8), whole quanta (O9), the
8-to-5 datapath (O10), the completion of `ENC` (O17), repeated commands (O24) and the first command after reset
(O44). Two group sequences are shown equal by their bit strings (`groupBits_injective`).
-/

namespace Sys2Proof.Machine

/-! ## The shape of an encoding (rules R115, R117) -/

section
variable {b : List Byte} {i : Nat}

theorem length_b32Encode_eq_add (b : List Byte) :
    (b32Encode b).length = groupCount b.length + padTable (8 * b.length % 40) :=
  (length_b32Encode b).trans (groupCount_add_padTable b.length).symm

theorem exists_alpha_getElem?_b32Encode (h : i < groupCount b.length) :
    ∃ v : Group, (b32Encode b)[i]? = some (alpha v) := by
  have hi : i < (byteGroups b).length := (length_byteGroups b).symm ▸ h
  refine ⟨(byteGroups b)[i], ?_⟩
  rw [getElem?_b32Encode_data b i h, List.getElem?_eq_getElem hi, Option.map_some]

theorem getElem?_b32Encode_pad (h : groupCount b.length ≤ i) (hi : i < (b32Encode b).length) :
    (b32Encode b)[i]? = some padSymbol := by
  rw [length_b32Encode_eq_add] at hi
  have hdata : ((byteGroups b).map alpha).length = groupCount b.length := by
    rw [List.length_map, length_byteGroups]
  unfold b32Encode
  rw [List.getElem?_append_right (by omega), hdata, List.getElem?_replicate, if_pos (by omega)]

/-- Each symbol of an encoding is one of the 33 codes (rule R118). -/
theorem eq_padSymbol_or_alpha_of_b32Encode {c : Byte} (h : (b32Encode b)[i]? = some c) :
    c = padSymbol ∨ ∃ v : Group, c = alpha v := by
  rcases Nat.lt_or_ge i (groupCount b.length) with hdata | hpad
  · obtain ⟨v, hv⟩ := exists_alpha_getElem?_b32Encode hdata
    exact .inr ⟨v, Option.some.inj (h.symm.trans hv)⟩
  · have hi : i < (b32Encode b).length := (List.getElem?_eq_some_iff.1 h).1
    exact .inl (Option.some.inj (h.symm.trans (getElem?_b32Encode_pad hpad hi)))

end

/-! ## One group (rules R111, R112, R114) -/

/-- The first 16 bits of a byte sequence followed by a zero fill are those of its first two bytes, an absent byte
being zero. -/
theorem take_byteBits_fill (b : List Byte) {k n : Nat} (hn : n ≤ 16) (hfill : n ≤ 8 * b.length + k) :
    (byteBits b ++ List.replicate k false).take n =
      (msbBits (b.getD 0 0#8) ++ msbBits (b.getD 1 0#8)).take n := by
  rw [take_append_replicate_false _ n k 16 (by rwa [length_byteBits]) (by omega)]
  have hzero : msbBits 0#8 = List.replicate 8 false := by decide
  match b with
  | [] =>
    show (List.replicate 16 false).take n = (msbBits 0#8 ++ msbBits 0#8).take n
    rw [hzero, List.replicate_append_replicate]
  | [x] =>
    show ((msbBits x ++ []) ++ List.replicate 16 false).take n = (msbBits x ++ msbBits 0#8).take n
    have hlen := length_msbBits x
    rw [hzero, List.append_nil, take_append_replicate_false _ n 16 8 (by omega) (by omega)]
  | x :: y :: b =>
    have h16 : n ≤ (msbBits x ++ msbBits y).length := by simpa using hn
    show ((msbBits x ++ (msbBits y ++ byteBits b)) ++ List.replicate 16 false).take n =
      (msbBits x ++ msbBits y).take n
    rw [← List.append_assoc, List.append_assoc, List.take_append_of_le_length h16]

theorem getD_drop {α : Type} (l : List α) (m i : Nat) (d : α) : (l.drop m).getD i d = l.getD (m + i) d := by
  rw [List.getD_eq_getElem?_getD, List.getElem?_drop, List.getD_eq_getElem?_getD]

/-- Five bits that start in byte `q`, at offset `r`, lie in that byte and the next one (rule R112). -/
theorem take_drop_byteBits_fill {b : List Byte} {k q r : Nat} (hq : q ≤ b.length) (hr : r < 8)
    (hfill : 8 * q + r + 5 ≤ 8 * b.length + k) :
    ((byteBits b ++ List.replicate k false).drop (8 * q + r)).take 5 =
      ((msbBits (b.getD q 0#8) ++ msbBits (b.getD (q + 1) 0#8)).take (r + 5)).drop r := by
  have htwo := take_byteBits_fill (b.drop q) (k := k) (n := r + 5) (by omega) (by rw [List.length_drop]; omega)
  rw [getD_drop, getD_drop, Nat.add_zero q] at htwo
  rw [← List.drop_drop, drop_byteBits_append _ _ _ hq, List.take_drop, htwo]

/-- The 5 bits at offset `r` of two bytes, as a group (rule R112). -/
theorem ofNat_bitsVal_window (x y : Byte) {r : Nat} (hr : r < 8) :
    BitVec.ofNat 5 (bitsVal (((msbBits x ++ msbBits y).take (r + 5)).drop r)) =
      BitVec.ofNat 5 ((x.toNat * 256 + y.toNat) / 2 ^ (11 - r)) := by
  apply BitVec.eq_of_toNat_eq
  have hlen : ((msbBits x ++ msbBits y).take (r + 5)).length = r + 5 := by
    rw [List.length_take, List.length_append, length_msbBits, length_msbBits]; omega
  rw [BitVec.toNat_ofNat, BitVec.toNat_ofNat, bitsVal_drop, hlen, bitsVal_take, bitsVal_append,
    List.length_append, length_msbBits, length_msbBits, bitsVal_msbBits, bitsVal_msbBits,
    Nat.add_sub_cancel_left, Nat.mod_mod, show 8 + 8 - (r + 5) = 11 - r by omega]
  rfl

/-- The closed form of a group: 5 of the 16 bits of the byte its first bit lies in and the next one (rule R112). -/
theorem getElem?_byteGroups (b : List Byte) {g : Nat} (h : g < groupCount b.length) :
    (byteGroups b)[g]? = some (BitVec.ofNat 5
      (((b.getD (5 * g / 8) 0#8).toNat * 256 + (b.getD (5 * g / 8 + 1) 0#8).toNat) /
        2 ^ (11 - 5 * g % 8))) := by
  have hle := le_groupCount b.length
  have hlt := groupCount_lt b.length
  have hr : 5 * g % 8 < 8 := Nat.mod_lt _ (by decide)
  have hwindow := take_drop_byteBits_fill (b := b) (k := 5 * groupCount b.length - 8 * b.length)
    (q := 5 * g / 8) (by omega) hr (by omega)
  rw [Nat.div_add_mod] at hwindow
  unfold byteGroups
  rw [List.getElem?_map, getElem?_slices _ _ _ _ h, Option.map_some, hwindow, ofNat_bitsVal_window _ _ hr]

/-! ## Whole quanta (rule R120) -/

theorem byteBits_append (b c : List Byte) : byteBits (b ++ c) = byteBits b ++ byteBits c :=
  List.flatMap_append

theorem groupBits_append (us vs : List Group) : groupBits (us ++ vs) = groupBits us ++ groupBits vs :=
  List.flatMap_append

/-- Whole quanta need no zero fill, and leave the fill of what follows alone. -/
theorem byteGroups_append {b : List Byte} (c : List Byte) (h : b.length % 5 = 0) :
    byteGroups (b ++ c) = byteGroups b ++ byteGroups c := by
  apply groupBits_injective
  have hnone : 5 * groupCount b.length - 8 * b.length = 0 := by
    unfold groupCount; omega
  have hsame : 5 * groupCount (b ++ c).length - 8 * (b ++ c).length =
      5 * groupCount c.length - 8 * c.length := by
    rw [List.length_append]; unfold groupCount; omega
  rw [groupBits_append, groupBits_byteGroups, groupBits_byteGroups, groupBits_byteGroups, hnone, hsame,
    List.replicate_zero, List.append_nil, byteBits_append, List.append_assoc]

theorem b32Encode_append {b : List Byte} (c : List Byte) (h : b.length % 5 = 0) :
    b32Encode (b ++ c) = b32Encode b ++ b32Encode c := by
  have hnone : 8 * b.length % 40 = 0 := by omega
  have hsame : 8 * (b ++ c).length % 40 = 8 * c.length % 40 := by rw [List.length_append]; omega
  have hb : b32Encode b = (byteGroups b).map alpha := by
    unfold b32Encode
    rw [hnone]
    exact List.append_nil _
  rw [hb]
  unfold b32Encode
  rw [byteGroups_append c h, hsame, List.map_append, List.append_assoc]

/-! ## The 8-to-5 datapath (rule R119) -/

/-- The last group is the unread bits, filled with zeros on the right to 5 (rule R119). -/
theorem Repack.Holds.groupBits_lastGroup {r : Repack} {p : List Bool} (h : r.Holds p) (hp : p.length < 5) :
    groupBits r.lastGroup = p ++ List.replicate ((5 - p.length) % 5) false := by
  obtain ⟨hcnt, hacc⟩ := h
  unfold Repack.lastGroup
  split
  case isTrue hzero =>
    rw [hzero] at hcnt
    rw [List.eq_nil_of_length_eq_zero hcnt.symm]
    rfl
  case isFalse hzero =>
    have hpos : 0 < p.length := by
      rw [← hcnt]
      exact Nat.pos_of_ne_zero fun h0 => hzero (BitVec.eq_of_toNat_eq h0)
    have hfill : (5#4 - r.cnt).toNat = 5 - p.length := by
      rw [BitVec.toNat_sub, hcnt, BitVec.toNat_ofNat]; omega
    have hgroup : (r.acc <<< (5#4 - r.cnt)).setWidth 5 =
        BitVec.ofNat 5 (bitsVal (p ++ List.replicate (5 - p.length) false)) := by
      apply BitVec.eq_of_toNat_eq
      rw [BitVec.toNat_setWidth, BitVec.shiftLeft_eq', BitVec.toNat_shiftLeft, hfill, hacc, bitsVal_append,
        bitsVal_replicate_false, List.length_replicate, Nat.shiftLeft_eq, BitVec.toNat_ofNat, Nat.add_zero,
        Nat.mod_mod_of_dvd _ (by decide)]
    rw [hgroup, groupBits_cons, msbBits_ofNat_bitsVal _ (by simp; omega), Nat.mod_eq_of_lt (by omega)]
    exact List.append_nil _

/-- The groups the datapath emits in its loop have the bits of the bytes, up to the unread ones. -/
theorem groupBits_repackBytes (b : List Byte) :
    groupBits (repackBytes repackStart b).1 = (byteBits b).take (5 * (8 * b.length / 5)) ∧
    (repackBytes repackStart b).2.Holds ((byteBits b).drop (5 * (8 * b.length / 5))) := by
  obtain ⟨hgroups, hold⟩ := repackStart_holds.repackBytes_spec b _ _ (by decide)
  rw [List.length_nil, Nat.zero_add, List.nil_append] at hgroups hold
  rw [hgroups]
  exact ⟨flatMap_msbBits_slices (by rw [length_byteBits]; omega), hold⟩

theorem repackBytes_append_lastGroup (b : List Byte) :
    (repackBytes repackStart b).1 ++ (repackBytes repackStart b).2.lastGroup = byteGroups b := by
  apply groupBits_injective
  obtain ⟨hread, hold⟩ := groupBits_repackBytes b
  have hunread : ((byteBits b).drop (5 * (8 * b.length / 5))).length = 8 * b.length % 5 := by
    rw [List.length_drop, length_byteBits]; omega
  have hfill : (5 - 8 * b.length % 5) % 5 = 5 * groupCount b.length - 8 * b.length := by
    unfold groupCount; omega
  rw [groupBits_append, hread, hold.groupBits_lastGroup (by omega), hunread, hfill, ← List.append_assoc,
    List.take_append_drop, groupBits_byteGroups]

theorem repackEncode_eq_b32Encode (b : List Byte) : repackEncode b = b32Encode b := by
  unfold b32Encode
  rw [← repackBytes_append_lastGroup, padTable_eq_padByResidue]
  rfl

/-! ## The completion of `ENC` (rule R118) -/

section
variable {s : State}

theorem encDone_tbufAt (s : State) (i : Nat) :
    (encDone s).tbufAt i = (b32Encode s.byteOperand).getD i (s.tbufAt i) :=
  s.writeText_tbufAt _ i

theorem encDone_tlen_le_tcap (h : s.blen.toNat ≤ s.bcap) : (encDone s).tlen.toNat ≤ s.tcap :=
  (encDone_tlen_toNat s h).trans_le (State.length_b32Encode_le_tcap h)

theorem getElem?_b32Encode_byteOperand (h : s.blen.toNat ≤ s.bcap) {i : Nat}
    (hi : i < (encDone s).tlen.toNat) :
    (b32Encode s.byteOperand)[i]? = some ((encDone s).tbufAt i) := by
  rw [encDone_tlen_toNat s h] at hi
  rw [encDone_tbufAt, List.getD, List.getElem?_eq_getElem hi, Option.getD_some]

theorem encDone_tbufAt_of_le (h : s.blen.toNat ≤ s.bcap) {i : Nat} (hi : (encDone s).tlen.toNat ≤ i) :
    (encDone s).tbufAt i = s.tbufAt i := by
  rw [encDone_tlen_toNat s h] at hi
  rw [encDone_tbufAt, List.getD, List.getElem?_eq_none hi, Option.getD_none]

/-! ## A command run twice (rules R110, R130, R166) -/

/-- Writing what a canonical buffer already holds changes nothing. -/
theorem Memory.writeRange_writeRange {m : Memory} (h : m.wf = true) (a : Nat) (vs : List Byte) :
    (m.writeRange a vs).writeRange a vs = m.writeRange a vs := by
  have hw := Memory.wf_writeRange vs a h
  refine Memory.ext_of_read (Memory.wf_writeRange vs a hw) hw fun k => ?_
  rw [Memory.read_writeRange, Memory.read_writeRange]
  split <;> rfl

/-- `ENC` leaves its source as it was. -/
theorem exec_enc_encDone (h : s.Inv) (hfits : s.blen.toNat ≤ s.bcap) :
    exec .enc (encDone s) = .next (encDone s) := by
  have htbuf : (encDone (encDone s)).tbuf = (encDone s).tbuf := Memory.writeRange_writeRange h.tbufWf 0 _
  have hsame : encDone (encDone s) = { encDone s with tbuf := (encDone (encDone s)).tbuf } := rfl
  rw [exec_enc_of_fits (s := encDone s) hfits, hsame, htbuf]

/-- `DEC` leaves its source as it was. -/
theorem exec_dec_decDone (h : s.Inv) (hfits : s.tlen.toNat ≤ s.tcap) {vs : List Group}
    (hv : validateText s.textOperand = .ok vs) :
    exec .dec (decDone vs s) = .next (decDone vs s) := by
  have hbbuf : (decDone vs (decDone vs s)).bbuf = (decDone vs s).bbuf :=
    Memory.writeRange_writeRange h.bbufWf 0 _
  have hsame : decDone vs (decDone vs s) = { decDone vs s with bbuf := (decDone vs (decDone vs s)).bbuf } :=
    rfl
  rw [exec_dec_of_ok (s := decDone vs s) hfits hv, hsame, hbbuf]

/-- A command that answers a next state answers it again from there, faults included (rule R188). -/
theorem exec_of_exec (h : s.Inv) {i : Instr} {t : State} (he : exec i s = .next t) :
    exec i t = .next t := by
  cases i with
  | enc =>
    rcases exec_enc_cases s with ⟨hlong, h'⟩ | ⟨hfits, h'⟩ <;> cases h'.symm.trans he
    · exact exec_enc_of_long (s := s.finish .length) hlong
    · exact exec_enc_encDone h hfits
  | dec =>
    rcases exec_dec_cases s with ⟨hlong, h'⟩ | ⟨hfits, c, hv, h'⟩ | ⟨hfits, vs, hv, h'⟩ <;>
      cases h'.symm.trans he
    · exact exec_dec_of_long (s := s.finish .length) hlong
    · exact exec_dec_of_error (s := s.finish c.err) hfits hv
    · exact exec_dec_decDone h hfits hv

theorem exists_exec_eq_next (i : Instr) (s : State) : ∃ t, exec i s = .next t := by
  cases i with
  | enc => rcases exec_enc_cases s with ⟨-, h⟩ | ⟨-, h⟩ <;> exact ⟨_, h⟩
  | dec => rcases exec_dec_cases s with ⟨-, h⟩ | ⟨-, c, -, h⟩ | ⟨-, vs, -, h⟩ <;> exact ⟨_, h⟩

/-! ## Commands on empty sources (rules R113, R133, R215) -/

/-- At the engine's turn a busy block performs the command latched (rule R163). -/
theorem step_of_command {rest : List Move} {i : Instr} (hs : s.schedule = .engine :: rest)
    (hb : s.status.busy = true) (hd : decode s.cmd = .command i) :
    step s = exec i { s with schedule := rest } := by
  rw [step_of_move hs]
  refine (State.engineTurn_busy (s := { s with schedule := rest }) hb).trans ?_
  rcases State.complete_cases { s with schedule := rest } with ⟨why, hwhy, -⟩ | ⟨j, hj, h⟩
  · cases hd.symm.trans hwhy
  · cases hd.symm.trans hj
    exact h

/-- With nothing to read a command succeeds and writes nothing (rules R113, R133). -/
theorem exec_of_lengths_zero (i : Instr) (hblen : s.blen = 0#16) (htlen : s.tlen = 0#16) :
    ∃ t, exec i s = .next t ∧ t.status = { busy := false, done := true, err := .none } ∧
      t.blen = 0#16 ∧ t.tlen = 0#16 ∧ t.bbuf = s.bbuf ∧ t.tbuf = s.tbuf ∧ t.cmd = s.cmd := by
  cases i with
  | enc =>
    have hfits : s.blen.toNat ≤ s.bcap := by rw [hblen]; exact Nat.zero_le _
    have hsource : s.byteOperand = [] := by
      unfold State.byteOperand; rw [hblen]; rfl
    have hdone : encDone s = ((s.writeText []).setRepack 0#12 0#4).finish .none := by
      unfold encDone; rw [hsource]; rfl
    exact ⟨_, (exec_enc_of_fits hfits).trans (congrArg _ hdone), rfl, hblen, rfl, rfl, rfl, rfl⟩
  | dec =>
    have hfits : s.tlen.toNat ≤ s.tcap := by rw [htlen]; exact Nat.zero_le _
    have hnone : validateText s.textOperand = .ok [] := by
      unfold State.textOperand; rw [htlen]; rfl
    exact ⟨_, exec_dec_of_ok hfits hnone, rfl, rfl, htlen, rfl, rfl, rfl⟩

end

/-! ## The statements -/

/-- Settles O7: the length is the groups and the padding of the table, in that order. -/
theorem encodeLengthAndPadding : Obligations.EncodeLengthAndPadding := by
  unfold Obligations.EncodeLengthAndPadding
  intro b
  have hpads : ∀ r, 8 * b.length % 40 = r → (b32Encode b).length = groupCount b.length + padTable r :=
    fun r hr => hr ▸ length_b32Encode_eq_add b
  exact ⟨hpads 8, hpads 16, hpads 24, hpads 32, hpads 0, length_b32Encode b,
    fun _ => exists_alpha_getElem?_b32Encode, fun _ => getElem?_b32Encode_pad⟩

/-- Settles O8: a data symbol is its group's, and the group has the closed form. -/
theorem encodeGroupClosedForm : Obligations.EncodeGroupClosedForm := by
  unfold Obligations.EncodeGroupClosedForm
  intro b g hg
  show (b32Encode b)[g]? = _
  rw [getElem?_b32Encode_data b g hg, getElem?_byteGroups b hg, Option.map_some]

/-- Settles O9: whole quanta have neither fill nor padding. -/
theorem encodePrefixLaw : Obligations.EncodePrefixLaw := by
  unfold Obligations.EncodePrefixLaw
  exact fun _ c h => b32Encode_append c h

/-- Settles O10: the groups emitted have the bits of the bytes and the zero fill. -/
theorem repackEncodeIsEncode : Obligations.RepackEncodeIsEncode := by
  unfold Obligations.RepackEncodeIsEncode
  exact fun b => ⟨repackEncode_eq_b32Encode b, repackBytes_registers b⟩

/-- Settles O17: the state a successful `ENC` leaves, location by location. -/
theorem encWritesTextAndLength : Obligations.EncWritesTextAndLength := by
  unfold Obligations.EncWritesTextAndLength
  intro s h
  exact ⟨encDone s, exec_enc_of_fits h, rfl, encDone_tlen_toNat s h, encDone_tlen_le_tcap h,
    fun _ => getElem?_b32Encode_byteOperand h,
    fun _ hi => eq_padSymbol_or_alpha_of_b32Encode (getElem?_b32Encode_byteOperand h hi),
    fun _ => encDone_tbufAt_of_le h, fun _ => rfl, rfl, rfl, rfl, rfl, rfl, rfl⟩

/-- Settles O24: a command leaves its source as it was, and rewriting the same result changes nothing. -/
theorem repeatedCommandChangesNothing : Obligations.RepeatedCommandChangesNothing := by
  unfold Obligations.RepeatedCommandChangesNothing
  intro i s h
  obtain ⟨t, ht⟩ := exists_exec_eq_next i s
  exact ⟨t, ht, exec_of_exec h ht⟩

/-- Settles O44: the write is accepted, and the command finds both lengths zero. -/
theorem firstCommandAfterReset : Obligations.FirstCommandAfterReset := by
  unfold Obligations.FirstCommandAfterReset
  intro q draw i rest
  have hdecode : decode (encode i) = .command i := (decode_eq_command_iff _ i).2 rfl
  obtain ⟨u, hu, hstatus, hblen, htlen, hbbuf, htbuf, hcmd⟩ :=
    exec_of_lengths_zero (s := { State.resetWith q with
      cmd := encode i, draw := draw, status := { busy := true, done := false, err := .none }, schedule := rest })
      i rfl rfl
  have hword : u.status.toWord = 0x00000002#32 := by rw [hstatus]; decide
  exact ⟨_, u, step_of_write_idle rfl rfl, (step_of_command rfl rfl hdecode).trans hu, hword, hblen, htlen,
    hbbuf, htbuf, hcmd⟩

end Sys2Proof.Machine
end

section
/-!
PROOFS of the family of `41_decode.md`: the checks of `Decode` and their causes (O11), the accepted set (O12), the
closed form of a decoded byte (O13), the 5-to-8 datapath (O14), decoding an encoding (O15), and the completions of
`DEC` (O18, O19), also after an `ENC` (O23).
-/

namespace Sys2Proof.Machine

/-! ## What `Decode` answers, by its checks (rules R131 to R136) -/

section
variable {t : List Byte}

theorem b32Decode_eq_fail_iff {c : Cause} : b32Decode t = .fail c ↔ validateText t = .error c := by
  unfold b32Decode
  cases validateText t <;> simp

theorem b32Decode_eq_ok_iff {o : List Byte} :
    b32Decode t = .ok o ↔ ∃ vs, validateText t = .ok vs ∧ groupBytes vs = o := by
  unfold b32Decode
  cases validateText t <;> simp

theorem mem_allowedPads_iff {p : Nat} : p ∈ allowedPads ↔ p = 0 ∨ p = 1 ∨ p = 3 ∨ p = 4 ∨ p = 6 := by
  simp [allowedPads]

theorem notMem_dataSymbols {c : Byte} :
    c ∉ dataSymbols t ↔ ∀ i, i < t.length - trailingPads t → t[i]? ≠ some c := by
  rw [mem_dataSymbols, not_exists]
  exact forall_congr' fun _ => not_and

theorem exists_mem_dataSymbols {p : Byte → Prop} :
    (∃ c ∈ dataSymbols t, p c) ↔ ∃ i c, i < t.length - trailingPads t ∧ t[i]? = some c ∧ p c := by
  constructor
  · rintro ⟨c, hc, hp⟩
    obtain ⟨i, hi, hget⟩ := (mem_dataSymbols t c).1 hc
    exact ⟨i, c, hi, hget, hp⟩
  · rintro ⟨i, c, hi, hget, hp⟩
    exact ⟨c, (mem_dataSymbols t c).2 ⟨i, hi, hget⟩, hp⟩

/-- The checks in their order: each looks only at a text that passed the ones before it (rules R134 to R136). -/
theorem validateText_cases (t : List Byte) :
    (trailingPads t ∉ allowedPads ∧ validateText t = .error .padCount) ∨
    (trailingPads t ∈ allowedPads ∧ padSymbol ∈ dataSymbols t ∧ validateText t = .error .padPos) ∨
    (trailingPads t ∈ allowedPads ∧ padSymbol ∉ dataSymbols t ∧ symIndices (dataSymbols t) = none ∧
      validateText t = .error .symbol) ∨
    (trailingPads t ∈ allowedPads ∧ padSymbol ∉ dataSymbols t ∧
      ∃ vs, symIndices (dataSymbols t) = some vs ∧ validateText t = .ok vs) := by
  unfold validateText
  by_cases hcount : trailingPads t ∈ allowedPads
  · by_cases hpos : padSymbol ∈ dataSymbols t
    · simp [hcount, hpos]
    · cases hsym : symIndices (dataSymbols t) <;> simp [hcount, hpos]
  · simp [hcount]

theorem validateText_eq_padCount_iff : validateText t = .error .padCount ↔ trailingPads t ∉ allowedPads := by
  rcases validateText_cases t with ⟨hcount, h⟩ | ⟨hcount, -, h⟩ | ⟨hcount, -, -, h⟩ | ⟨hcount, -, vs, -, h⟩ <;>
    simp [h, hcount]

theorem validateText_eq_padPos_iff :
    validateText t = .error .padPos ↔ trailingPads t ∈ allowedPads ∧ padSymbol ∈ dataSymbols t := by
  rcases validateText_cases t with ⟨hcount, h⟩ | ⟨hcount, hpos, h⟩ | ⟨-, hpos, -, h⟩ | ⟨-, hpos, vs, -, h⟩
  · simp [h, hcount]
  · exact iff_of_true h ⟨hcount, hpos⟩
  · simp [h, hpos]
  · simp [h, hpos]

theorem validateText_eq_symbol_iff :
    validateText t = .error .symbol ↔ trailingPads t ∈ allowedPads ∧ padSymbol ∉ dataSymbols t ∧
      ∃ c ∈ dataSymbols t, symIndex c = .none := by
  rcases validateText_cases t with ⟨hcount, h⟩ | ⟨-, hpos, h⟩ | ⟨hcount, hpos, hsym, h⟩ |
    ⟨-, hpos, vs, hsym, h⟩
  · simp [h, hcount]
  · simp [h, hpos]
  · exact iff_of_true h ⟨hcount, hpos, (symIndices_eq_none_iff _ hpos).1 hsym⟩
  · refine iff_of_false (by simp [h]) ?_
    rintro ⟨-, -, hnone⟩
    cases hsym.symm.trans ((symIndices_eq_none_iff _ hpos).2 hnone)

/-! ## The trailing run, location by location (rule R132) -/

theorem getElem?_of_trailing_le {i : Nat} (hlo : t.length - trailingPads t ≤ i) (hhi : i < t.length) :
    t[i]? = some padSymbol := by
  obtain ⟨hsplit, -, -⟩ := eq_append_trailingPads t
  rw [← length_dataSymbols] at hlo
  have hrun : i - (dataSymbols t).length < trailingPads t := by
    have := length_dataSymbols t
    omega
  rw [hsplit, List.getElem?_append_right hlo, List.getElem?_replicate, if_pos hrun]

/-- The last symbol of a text without a trailing run is not `=`. -/
theorem getLast?_ne_of_trailingPads_eq_zero {d : List Byte} (h : trailingPads d = 0) :
    d.getLast? ≠ some padSymbol := by
  intro hlast
  obtain ⟨us, rfl⟩ := List.getLast?_eq_some_iff.1 hlast
  have hone : trailingPads (us ++ [padSymbol]) = 1 + trailingPads us := trailingPads_append_replicate us 1
  omega

/-- The run is the longest: the symbol before it is not `=`. -/
theorem getElem?_before_trailing (hpos : 0 < t.length - trailingPads t) :
    t[t.length - trailingPads t - 1]? ≠ some padSymbol := by
  obtain ⟨-, hnone, -⟩ := eq_append_trailingPads t
  have hlast := getLast?_ne_of_trailingPads_eq_zero hnone
  rwa [List.getLast?_eq_getElem?, length_dataSymbols, dataSymbols, List.getElem?_take_of_lt (by omega)] at hlast

/-! ## Texts of known shape (rules R137, R145, R147) -/

theorem b32Decode_shape (vs : List Group) {p : Nat} (h : p ∈ allowedPads) :
    b32Decode (vs.map alpha ++ List.replicate p padSymbol) = .ok (groupBytes vs) :=
  b32Decode_of_ok (validateText_shape vs h)

/-- The bytes cut out of the groups of bytes are the bytes: the zero fill is discarded. -/
theorem groupBytes_byteGroups (b : List Byte) : groupBytes (byteGroups b) = b := by
  unfold groupBytes
  rw [length_byteGroups, mul_groupCount_div, groupBits_byteGroups, map_slices_byteBits]

theorem b32Decode_b32Encode (b : List Byte) : b32Decode (b32Encode b) = .ok b := by
  rw [b32Decode_of_ok (validateText_b32Encode b), groupBytes_byteGroups]

end

/-! ## One byte (rules R138, R139) -/

/-- The `w` bits at offset `r` of a bit string, as a value (rule R139). -/
theorem ofNat_bitsVal_drop_take {S : List Bool} {r w : Nat} (h : r + w ≤ S.length) :
    BitVec.ofNat w (bitsVal ((S.take (r + w)).drop r)) =
      BitVec.ofNat w (bitsVal S / 2 ^ (S.length - (r + w))) := by
  apply BitVec.eq_of_toNat_eq
  rw [BitVec.toNat_ofNat, BitVec.toNat_ofNat, bitsVal_drop, List.length_take_of_le h, Nat.add_sub_cancel_left,
    Nat.mod_mod, bitsVal_take]

theorem bitsVal_groupBits_three (x y z : Group) :
    bitsVal (groupBits [x, y, z]) = x.toNat * 1024 + y.toNat * 32 + z.toNat := by
  have hnil : bitsVal (groupBits []) = 0 := rfl
  simp only [groupBits_cons, bitsVal_append, bitsVal_msbBits, List.length_append, length_msbBits, length_groupBits,
    List.length_nil, hnil]
  omega

/-- The first bits of an index sequence, 15 at most, are those of its first three indices. -/
theorem take_groupBits {vs : List Group} {n : Nat} (hn : n ≤ 15) (hlen : n ≤ 5 * vs.length) :
    (groupBits vs).take n =
      (groupBits [vs.getD 0 0#5, vs.getD 1 0#5, vs.getD 2 0#5]).take n := by
  have hthree : (vs ++ [0#5, 0#5, 0#5]).take 3 = [vs.getD 0 0#5, vs.getD 1 0#5, vs.getD 2 0#5] := by
    match vs with
    | [] | [_] | [_, _] | _ :: _ :: _ :: _ => rfl
  have hbits : (groupBits ((vs ++ [0#5, 0#5, 0#5]).take 3)).length = 15 := by
    rw [hthree]
    exact length_groupBits _
  calc (groupBits vs).take n
    _ = (groupBits (vs ++ [0#5, 0#5, 0#5])).take n := by
        rw [groupBits_append, List.take_append_of_le_length (by rwa [length_groupBits])]
    _ = (groupBits ((vs ++ [0#5, 0#5, 0#5]).take 3)).take n := by
        conv_lhs => rw [← List.take_append_drop 3 (vs ++ [0#5, 0#5, 0#5]), groupBits_append]
        exact List.take_append_of_le_length (by omega)
    _ = _ := by rw [hthree]

/-- Eight bits that start in index `q`, at offset `r`, lie in that index and the next two (rule R139). -/
theorem take_drop_groupBits {vs : List Group} {q r : Nat} (hr : r < 5) (hlen : 5 * q + r + 8 ≤ 5 * vs.length) :
    ((groupBits vs).drop (5 * q + r)).take 8 =
      ((groupBits [vs.getD q 0#5, vs.getD (q + 1) 0#5, vs.getD (q + 2) 0#5]).take (r + 8)).drop r := by
  have hfirst := take_groupBits (vs := vs.drop q) (n := r + 8) (by omega) (by rw [List.length_drop]; omega)
  rw [getD_drop, getD_drop, getD_drop, Nat.add_zero q] at hfirst
  rw [← List.drop_drop, drop_groupBits _ _ (by omega), List.take_drop, hfirst]

/-- The closed form of a byte: 8 of the 15 bits of the index its first bit lies in and the next two (rule R139). -/
theorem getElem?_groupBytes (vs : List Group) {k : Nat} (h : k < 5 * vs.length / 8) :
    (groupBytes vs)[k]? = some (BitVec.ofNat 8
      (((vs.getD (8 * k / 5) 0#5).toNat * 1024 + (vs.getD (8 * k / 5 + 1) 0#5).toNat * 32 +
        (vs.getD (8 * k / 5 + 2) 0#5).toNat) / 2 ^ (7 - 8 * k % 5))) := by
  have hr : 8 * k % 5 < 5 := Nat.mod_lt _ (by decide)
  have hwindow := take_drop_groupBits (vs := vs) (q := 8 * k / 5) hr (by omega)
  rw [Nat.div_add_mod] at hwindow
  have hlen (x y z : Group) : (groupBits [x, y, z]).length = 15 := length_groupBits _
  unfold groupBytes
  rw [List.getElem?_map, getElem?_slices _ _ _ _ h, Option.map_some, hwindow,
    ofNat_bitsVal_drop_take (by rw [hlen]; omega), bitsVal_groupBits_three, hlen,
    show 15 - (8 * k % 5 + 8) = 7 - 8 * k % 5 by omega]

/-! ## The 5-to-8 datapath (rule R144) -/

theorem repackGroups_eq_groupBytes (vs : List Group) : (repackGroups repackStart vs).1 = groupBytes vs := by
  obtain ⟨hbytes, -⟩ := repackStart_holds.repackGroups_spec vs _ _ (by decide)
  rwa [List.length_nil, Nat.zero_add, List.nil_append] at hbytes

theorem repackDecode_eq_b32Decode (t : List Byte) : repackDecode t = b32Decode t := by
  unfold repackDecode b32Decode
  cases validateText t with
  | error c => rfl
  | ok vs => exact congrArg _ (repackGroups_eq_groupBytes vs)

/-! ## The completion of `DEC` (rules R130, R142) -/

section
variable {s : State} {vs : List Group}

theorem decDone_bbufAt (vs : List Group) (s : State) (i : Nat) :
    (decDone vs s).bbufAt i = (groupBytes vs).getD i (s.bbufAt i) :=
  s.writeBytes_bbufAt _ i

theorem getElem?_groupBytes_decDone (h : s.tlen.toNat ≤ s.tcap) (hv : validateText s.textOperand = .ok vs)
    {i : Nat} (hi : i < (decDone vs s).blen.toNat) :
    (groupBytes vs)[i]? = some ((decDone vs s).bbufAt i) := by
  rw [decDone_blen_toNat s vs h hv] at hi
  rw [decDone_bbufAt, List.getD, List.getElem?_eq_getElem hi, Option.getD_some]

theorem decDone_bbufAt_of_le (h : s.tlen.toNat ≤ s.tcap) (hv : validateText s.textOperand = .ok vs)
    {i : Nat} (hi : (decDone vs s).blen.toNat ≤ i) : (decDone vs s).bbufAt i = s.bbufAt i := by
  rw [decDone_blen_toNat s vs h hv] at hi
  rw [decDone_bbufAt, List.getD, List.getElem?_eq_none hi, Option.getD_none]

theorem decDone_blen_le_bcap (h : s.tlen.toNat ≤ s.tcap) (hv : validateText s.textOperand = .ok vs) :
    (decDone vs s).blen.toNat ≤ s.bcap :=
  (decDone_blen_toNat s vs h hv).trans_le (State.length_groupBytes_le_bcap h hv)

/-- The length `DEC` writes, from the source's length and trailing run (rule R141). -/
theorem decDone_blen_eq (h : s.tlen.toNat ≤ s.tcap) (hv : validateText s.textOperand = .ok vs) :
    (decDone vs s).blen.toNat = 5 * (s.tlen.toNat - trailingPads s.textOperand) / 8 := by
  rw [decDone_blen_toNat s vs h hv, length_groupBytes, length_of_validateText hv, State.length_textOperand]

/-! ## `DEC` after `ENC` (rules R147, R162) -/

/-- Bytes that are those of the source read, at every location, as `BBUF` does. -/
theorem State.byteOperand_getD (s : State) (i : Nat) : s.byteOperand.getD i (s.bbufAt i) = s.bbufAt i := by
  rcases Nat.lt_or_ge i s.blen.toNat with hi | hi
  · rw [List.getD, State.getElem?_byteOperand s hi, Option.getD_some]
  · rw [List.getD, List.getElem?_eq_none (by rwa [State.length_byteOperand]), Option.getD_none]

/-- After a successful `ENC` the text passes every check. -/
theorem validateText_encDone (h : s.blen.toNat ≤ s.bcap) :
    validateText (encDone s).textOperand = .ok (byteGroups s.byteOperand) := by
  rw [encDone_textOperand h]
  exact validateText_b32Encode _

theorem decDone_encDone_bbufAt (s : State) (i : Nat) :
    (decDone (byteGroups s.byteOperand) (encDone s)).bbufAt i = s.bbufAt i := by
  rw [decDone_bbufAt, groupBytes_byteGroups]
  exact s.byteOperand_getD i

theorem decDone_encDone_blen (s : State) :
    (decDone (byteGroups s.byteOperand) (encDone s)).blen = s.blen := by
  show BitVec.ofNat 16 (groupBytes (byteGroups s.byteOperand)).length = s.blen
  rw [groupBytes_byteGroups, State.length_byteOperand, BitVec.ofNat_toNat, BitVec.setWidth_eq]

end

/-! ## The statements -/

/-- Settles O11: each cause is a check's, and the checks are made in their order. -/
theorem decodeFailureCauses : Obligations.DecodeFailureCauses := by
  unfold Obligations.DecodeFailureCauses
  intro t
  have hother : ∀ c, b32Decode t = .fail c → c = .padCount ∨ c = .padPos ∨ c = .symbol :=
    fun c h => cause_of_validateText (b32Decode_eq_fail_iff.1 h)
  obtain ⟨-, -, hle⟩ := eq_append_trailingPads t
  refine ⟨⟨hle, fun _ => getElem?_of_trailing_le, getElem?_before_trailing⟩, ?_, ?_, ?_, ?_, ?_⟩
  · rw [b32Decode_eq_fail_iff, validateText_eq_padCount_iff, mem_allowedPads_iff]
  · rw [b32Decode_eq_fail_iff, validateText_eq_padPos_iff, mem_allowedPads_iff, mem_dataSymbols]
  · rw [b32Decode_eq_fail_iff, validateText_eq_symbol_iff, mem_allowedPads_iff,
      notMem_dataSymbols, exists_mem_dataSymbols]
  · intro h; simpa using hother _ h
  · intro h; simpa using hother _ h

/-- Settles O12: a text passes the checks exactly when it has the shape. -/
theorem decodeAcceptsExactly : Obligations.DecodeAcceptsExactly := by
  unfold Obligations.DecodeAcceptsExactly
  intro t
  constructor
  · rintro ⟨o, ho⟩
    obtain ⟨vs, hv, -⟩ := b32Decode_eq_ok_iff.1 ho
    obtain ⟨hshape, hpads⟩ := shape_of_validateText hv
    exact ⟨vs, trailingPads t, mem_allowedPads_iff.1 hpads, hshape⟩
  · rintro ⟨vs, p, hp, rfl⟩
    exact ⟨_, b32Decode_shape vs (mem_allowedPads_iff.2 hp)⟩

/-- Settles O13: the indices are found whatever the padding, and a byte has the closed form. -/
theorem decodeBytesClosedForm : Obligations.DecodeBytesClosedForm := by
  unfold Obligations.DecodeBytesClosedForm
  intro vs p hp
  exact ⟨groupBytes vs, b32Decode_shape vs (mem_allowedPads_iff.2 hp), length_groupBytes vs,
    fun k hk => getElem?_groupBytes vs (length_groupBytes vs ▸ hk)⟩

/-- Settles O14: the datapath emits the whole bytes of the indices' bits and holds the rest. -/
theorem repackDecodeIsDecode : Obligations.RepackDecodeIsDecode := by
  unfold Obligations.RepackDecodeIsDecode
  exact ⟨repackDecode_eq_b32Decode, repackGroups_registers⟩

/-- Settles O15: an encoding passes the checks, and its zero fill is what decoding discards. -/
theorem decodeOfEncode : Obligations.DecodeOfEncode := by
  unfold Obligations.DecodeOfEncode
  exact ⟨b32Decode_b32Encode, fun _ o _ => b32Decode_b32Encode o⟩

/-- Settles O18: the state a successful `DEC` leaves, location by location. -/
theorem decWritesBytesAndLength : Obligations.DecWritesBytesAndLength := by
  unfold Obligations.DecWritesBytesAndLength
  intro s o h ho
  obtain ⟨vs, hv, rfl⟩ := b32Decode_eq_ok_iff.1 ho
  exact ⟨decDone vs s, exec_dec_of_ok h hv, rfl, decDone_blen_toNat s vs h hv, decDone_blen_eq h hv,
    decDone_blen_le_bcap h hv, fun _ => getElem?_groupBytes_decDone h hv, fun _ => decDone_bbufAt_of_le h hv,
    fun _ => rfl, rfl, rfl, rfl, rfl, rfl, rfl⟩

/-- Settles O23: the text `ENC` leaves passes the checks, and its bytes are those `BBUF` already holds. -/
theorem encThenDecRestoresBytes : Obligations.EncThenDecRestoresBytes := by
  unfold Obligations.EncThenDecRestoresBytes
  intro s h
  exact ⟨encDone s, decDone (byteGroups s.byteOperand) (encDone s), exec_enc_of_fits h,
    exec_dec_of_ok (encDone_tlen_le_tcap h) (validateText_encDone h), rfl, decDone_encDone_blen s, rfl,
    decDone_encDone_bbufAt s, fun _ => rfl⟩

/-- Settles O19: the check that fails gives the cause, and raising it sets `STATUS` alone. -/
theorem decRejectedChangesOnlyStatus : Obligations.DecRejectedChangesOnlyStatus := by
  unfold Obligations.DecRejectedChangesOnlyStatus
  exact fun s c h hfail => exec_dec_of_error h (b32Decode_eq_fail_iff.1 hfail)

end Sys2Proof.Machine
end

section
/-!
PROOFS of the family of `42_command_control.md`: the acceptance of a command (O26), the engine's turn (O27, O28) and
its delay (O36), the transitions of `BUSY` (O32), the capacity checks (O20), and what an outcome depends on (O25).
-/

namespace Sys2Proof.Machine

variable {s u t : State}

/-! ## The engine's turn (rules R163, R164) -/

theorem State.complete_of_command {i : Instr} (hd : decode s.cmd = .command i) : s.complete = exec i s := by
  unfold State.complete
  rw [hd]

theorem State.complete_of_reserved {why : Reserved} (hd : decode s.cmd = .reserved why) :
    s.complete = .next (s.finish .badCmd) := by
  unfold State.complete
  rw [hd]
  rfl

/-- The engine has the turn by the schedule, or when it is used up (log 2). -/
theorem step_of_engine_turn {rest : List Move}
    (hs : s.schedule = .engine :: rest ∨ (s.schedule = [] ∧ rest = [])) :
    step s = State.engineTurn { s with schedule := rest } := by
  rcases hs with hs | ⟨hs, rfl⟩
  · exact step_of_move hs
  · rw [step_of_empty hs, ← hs]

theorem step_of_busy_turn {rest : List Move} (hb : s.status.busy = true)
    (hs : s.schedule = .engine :: rest ∨ (s.schedule = [] ∧ rest = [])) :
    step s = State.complete { s with schedule := rest } :=
  (step_of_engine_turn hs).trans (State.engineTurn_busy hb)

/-! ## Polling before the engine's turn (rule R164) -/

/-- Reads of one location give the host their answer and use up their moves, and do no more. -/
theorem run_reads (a : LocAddr) (ms : List Move) (k : Nat) : ∀ s : State,
    s.schedule = List.replicate (k + 1) (.host (.read a)) ++ ms →
    Sys2Proof.core.run (k + 1) s = .next { s with reply := some (s.memRead a), schedule := ms } := by
  induction k with
  | zero => exact fun s hs => run_succ_of_step (step_of_read hs) 0
  | succ k ih => exact fun s hs => (run_succ_of_step (step_of_read hs) (k + 1)).trans (ih _ rfl)

/-- A poll of a command in flight reads `BUSY` alone (rules R89, R164). -/
theorem State.memRead_locSTATUS_of_inFlight (hs : s.status = { busy := true, done := false, err := .none }) :
    s.memRead locSTATUS = 0x00000001#32 := by
  rw [State.memRead_locSTATUS, hs]
  decide

/-! ## The transitions of `BUSY` (rule R161) -/

/-- Among the idle writes only that of `CMD` starts a command. -/
theorem State.eq_locCMD_of_idleWrite_busy {a : LocAddr} {v : Word} (hs : s.status.busy = false)
    (ht : (s.idleWrite a v).status.busy = true) : a = locCMD ∧ (s.idleWrite a v).cmd = v := by
  rcases s.idleWrite_cases a v with e | ⟨ha, e⟩ | e | e | ⟨i, -, e⟩ | ⟨i, -, e⟩ <;> rw [e] at ht ⊢
  case inr.inl => exact ⟨ha, rfl⟩
  all_goals exact absurd (hs.symm.trans ht) nofun

theorem cmd_write_of_step_starts (h : step s = .next t) (hs : s.status.busy = false)
    (ht : t.status.busy = true) :
    ∃ v rest, s.schedule = .host (.write locCMD v) :: rest ∧ t.cmd = v := by
  rcases step_cases s with ⟨rest, -, h'⟩ | ⟨a, rest, -, h'⟩ | ⟨a, v, rest, -, hb, -⟩ |
    ⟨a, v, rest, hsched, -, h'⟩ | ⟨rest, -, h'⟩
  · obtain ⟨w, hw, -, hidle⟩ := State.engineTurn_spec { s with schedule := rest }
    cases (hw.symm.trans h'.symm).trans h
    exact absurd (hidle.symm.trans ht) nofun
  · cases h'.symm.trans h
    exact absurd (hs.symm.trans ht) nofun
  · exact absurd (hs.symm.trans hb) nofun
  · cases h'.symm.trans h
    obtain ⟨rfl, hcmd⟩ := State.eq_locCMD_of_idleWrite_busy (s := { s with schedule := rest }) hs ht
    exact ⟨v, rest, hsched, hcmd⟩
  · cases h'.symm.trans h
    exact absurd ht nofun

/-- A host's transaction does not end a command: a read changes only the reply, and a write is dropped. -/
theorem engine_or_reset_of_step_ends (h : step s = .next t) (hs : s.status.busy = true)
    (ht : t.status.busy = false) :
    s.schedule = [] ∨ ∃ m rest, s.schedule = m :: rest ∧ (m = .engine ∨ m = .reset) := by
  rcases step_cases s with ⟨rest, hturn, -⟩ | ⟨a, rest, -, h'⟩ | ⟨a, v, rest, -, -, h'⟩ |
    ⟨a, v, rest, -, hb, -⟩ | ⟨rest, hsched, -⟩
  · rcases hturn with hsched | ⟨hempty, -⟩
    · exact .inr ⟨.engine, rest, hsched, .inl rfl⟩
    · exact .inl hempty
  · cases h'.symm.trans h
    exact absurd (hs.symm.trans ht) nofun
  · cases h'.symm.trans h
    exact absurd (hs.symm.trans ht) nofun
  · exact absurd (hs.symm.trans hb) nofun
  · exact .inr ⟨.reset, rest, hsched, .inr rfl⟩

/-! ## Two blocks with the same source (rule R166) -/

theorem State.bcap_congr (h : s.cap = u.cap) : s.bcap = u.bcap := by
  unfold State.bcap
  rw [h]

theorem State.tcap_congr (h : s.cap = u.cap) : s.tcap = u.tcap := by
  unfold State.tcap
  rw [h]

/-- The text and length a successful `ENC` leaves come from its operand alone. -/
theorem encDone_result_congr (hs : s.blen.toNat ≤ s.bcap) (hu : u.blen.toNat ≤ u.bcap)
    (h : s.byteOperand = u.byteOperand) :
    (encDone s).tlen = (encDone u).tlen ∧
      ∀ i, i < (encDone s).tlen.toNat → (encDone s).tbufAt i = (encDone u).tbufAt i := by
  have hlen : (encDone s).tlen = (encDone u).tlen :=
    congrArg (fun b => BitVec.ofNat 16 (b32Encode b).length) h
  refine ⟨hlen, fun i hi => Option.some.inj ?_⟩
  rw [← getElem?_b32Encode_byteOperand hs hi, ← getElem?_b32Encode_byteOperand hu (hlen ▸ hi), h]

/-- The bytes and length a successful `DEC` leaves come from the operand's indices alone. -/
theorem decDone_result_congr {vs : List Group} (hs : s.tlen.toNat ≤ s.tcap) (hu : u.tlen.toNat ≤ u.tcap)
    (hvs : validateText s.textOperand = .ok vs) (hvu : validateText u.textOperand = .ok vs) :
    (decDone vs s).blen = (decDone vs u).blen ∧
      ∀ i, i < (decDone vs s).blen.toNat → (decDone vs s).bbufAt i = (decDone vs u).bbufAt i := by
  refine ⟨rfl, fun i hi => Option.some.inj ?_⟩
  rw [← getElem?_groupBytes_decDone hs hvs hi, ← getElem?_groupBytes_decDone hu hvu hi]

theorem exec_enc_outcome_congr (hcap : s.cap = u.cap) (hlen : s.blen = u.blen)
    (hsource : ∀ i, i < s.blen.toNat → s.bbufAt i = u.bbufAt i) :
    ∃ s' u' : State, exec .enc s = .next s' ∧ exec .enc u = .next u' ∧ s'.status = u'.status ∧
      (s'.status.err = .none →
        s'.tlen = u'.tlen ∧ ∀ i, i < s'.tlen.toNat → s'.tbufAt i = u'.tbufAt i) := by
  have hbcap := State.bcap_congr hcap
  rcases exec_enc_cases s with ⟨hlong, h⟩ | ⟨hfits, h⟩
  · exact ⟨_, _, h, exec_enc_of_long (hbcap ▸ hlen ▸ hlong), rfl, nofun⟩
  · have hfits' : u.blen.toNat ≤ u.bcap := hbcap ▸ hlen ▸ hfits
    exact ⟨_, _, h, exec_enc_of_fits hfits', rfl,
      fun _ => encDone_result_congr hfits hfits' (State.byteOperand_congr hlen hsource)⟩

theorem exec_dec_outcome_congr (hcap : s.cap = u.cap) (hlen : s.tlen = u.tlen)
    (hsource : ∀ i, i < s.tlen.toNat → s.tbufAt i = u.tbufAt i) :
    ∃ s' u' : State, exec .dec s = .next s' ∧ exec .dec u = .next u' ∧ s'.status = u'.status ∧
      (s'.status.err = .none →
        s'.blen = u'.blen ∧ ∀ i, i < s'.blen.toNat → s'.bbufAt i = u'.bbufAt i) := by
  have htcap := State.tcap_congr hcap
  have htext := State.textOperand_congr hlen hsource
  rcases exec_dec_cases s with ⟨hlong, h⟩ | ⟨hfits, c, hv, h⟩ | ⟨hfits, vs, hv, h⟩
  · exact ⟨_, _, h, exec_dec_of_long (htcap ▸ hlen ▸ hlong), rfl, nofun⟩
  · exact ⟨_, _, h, exec_dec_of_error (htcap ▸ hlen ▸ hfits) (htext ▸ hv), rfl,
      fun he => absurd he c.err_ne_none⟩
  · have hfits' : u.tlen.toNat ≤ u.tcap := htcap ▸ hlen ▸ hfits
    exact ⟨_, _, h, exec_dec_of_ok hfits' (htext ▸ hv), rfl,
      fun _ => decDone_result_congr hfits hfits' hv (htext ▸ hv)⟩

/-- No check of `Decode` gives `Length`. -/
theorem err_ne_length_of_validateText {x : List Byte} {c : Cause} (h : validateText x = .error c) :
    c.err ≠ .length := by
  rcases cause_of_validateText h with rfl | rfl | rfl <;> decide

/-! ## The statements -/

/-- Settles O25: a reserved word has one outcome, and each command's is that of its operand. -/
theorem outcomeDependsOnSourceOnly : Obligations.OutcomeDependsOnSourceOnly := by
  unfold Obligations.OutcomeDependsOnSourceOnly
  intro s u hcmd hcap henc hdec
  cases hd : decode s.cmd with
  | reserved why =>
    exact ⟨_, _, State.complete_of_reserved hd, State.complete_of_reserved (hcmd ▸ hd), rfl, nofun, nofun⟩
  | command i =>
    rw [State.complete_of_command hd, State.complete_of_command (hcmd ▸ hd : decode u.cmd = _)]
    cases i with
    | enc =>
      obtain ⟨hlen, hsource⟩ := henc hd
      obtain ⟨s', u', hs, hu, hstatus, hresult⟩ := exec_enc_outcome_congr hcap hlen hsource
      exact ⟨s', u', hs, hu, hstatus, fun _ => hresult, nofun⟩
    | dec =>
      obtain ⟨hlen, hsource⟩ := hdec hd
      obtain ⟨s', u', hs, hu, hstatus, hresult⟩ := exec_dec_outcome_congr hcap hlen hsource
      exact ⟨s', u', hs, hu, hstatus, nofun, fun _ => hresult⟩

/-- Settles O32: of the moves only the `CMD` write sets `BUSY`, and only the engine's and the reset clear it. -/
theorem busyTransitions : Obligations.BusyTransitions := by
  unfold Obligations.BusyTransitions
  exact fun s t h => ⟨cmd_write_of_step_starts h, engine_or_reset_of_step_ends h⟩

/-- Settles O36: the write is accepted, and the reads leave the block in flight, however many they are. -/
theorem delayIsUnbounded : Obligations.DelayIsUnbounded := by
  unfold Obligations.DelayIsUnbounded
  intro s v k rest hidle hs
  have haccept : step s = .next { s.acceptCommand v with
      schedule := List.replicate k (.host (.read locSTATUS)) ++ .engine :: rest } := step_of_write_idle hs hidle
  cases k with
  | zero => exact ⟨_, run_succ_of_step haccept 0, rfl, rfl, rfl, nofun⟩
  | succ k =>
    have hrun := (run_succ_of_step haccept (k + 1)).trans (run_reads locSTATUS (.engine :: rest) k _ rfl)
    exact ⟨_, hrun, rfl, rfl, rfl, fun _ => congrArg some (State.memRead_locSTATUS_of_inFlight rfl)⟩

/-- Settles O20: the capacity check comes first, and no later check gives its code. -/
theorem capacityCheck : Obligations.CapacityCheck := by
  unfold Obligations.CapacityCheck
  refine fun s => ⟨exec_enc_of_long, exec_dec_of_long, fun h => ⟨_, exec_enc_of_fits h, nofun⟩, fun h => ?_⟩
  rcases exec_dec_cases s with ⟨hlong, -⟩ | ⟨-, c, hv, h'⟩ | ⟨-, vs, -, h'⟩
  · exact absurd hlong (Nat.not_lt.2 h)
  · exact ⟨_, h', err_ne_length_of_validateText hv⟩
  · exact ⟨_, h', nofun⟩

/-- Settles O26: location 0 is `CMD`, and an idle write there is the acceptance. -/
theorem commandWriteAccepted : Obligations.CommandWriteAccepted := by
  unfold Obligations.CommandWriteAccepted
  exact fun s v rest hs => ⟨step_of_write_idle hs, step_of_write_busy hs⟩

/-- Settles O27: a busy block's turn is the completion step, which decodes the latched word. -/
theorem stepRunsDecodedCommand : Obligations.StepRunsDecodedCommand := by
  unfold Obligations.StepRunsDecodedCommand
  intro s rest hb hs
  have hstep := step_of_busy_turn hb hs
  exact ⟨fun i hd => hstep.trans (State.complete_of_command hd),
    fun why hd => hstep.trans (State.complete_of_reserved hd)⟩

/-- Settles O28: every path of the completion step ends idle and done, and an idle turn passes (log 3). -/
theorem completionEndsBusy : Obligations.CompletionEndsBusy := by
  unfold Obligations.CompletionEndsBusy
  refine fun s rest hs => ⟨fun hb => ?_, fun hidle => ?_⟩
  · obtain ⟨t, ht, hbusy, hdone, hcmd, hsched, -⟩ := State.complete_spec { s with schedule := rest }
    exact ⟨t, (step_of_busy_turn hb (.inl hs)).trans ht, hbusy, hdone, hcmd, hsched⟩
  · exact (step_of_engine_turn (.inl hs)).trans (State.engineTurn_idle hidle)

end Sys2Proof.Machine
end

section
/-!
PROOFS of the family of `60_exceptions.md`: what a fault leaves (O30), which cause it records (O31), and the causes
the host reports as `DecodeError` (O22). One lemma per command, and one for the completion step, says exactly when
each cause is recorded; the priority is read off them.
-/

namespace Sys2Proof.Machine

variable {s : State}

/-! ## The outcomes that record a cause (rules R89, R180) -/

theorem Cause.err_eq_err_iff {c d : Cause} : c.err = d.err ↔ c = d := by
  constructor
  · cases c <;> cases d <;> decide
  · exact congrArg Cause.err

theorem Cause.length_eq_err_iff {c : Cause} : Err.length = c.err ↔ c = .length :=
  eq_comm.trans (Cause.err_eq_err_iff (d := .length))

theorem Cause.badCmd_eq_err_iff {c : Cause} : Err.badCmd = c.err ↔ c = .badCmd :=
  eq_comm.trans (Cause.err_eq_err_iff (d := .badCmd))

theorem Err.exists_cause {e : Err} (he : e ≠ .none) : ∃ c : Cause, c.err = e := by
  cases e with
  | none => exact absurd rfl he
  | padCount => exact ⟨.padCount, rfl⟩
  | padPos => exact ⟨.padPos, rfl⟩
  | symbol => exact ⟨.symbol, rfl⟩
  | length => exact ⟨.length, rfl⟩
  | badCmd => exact ⟨.badCmd, rfl⟩

theorem validateText_ne_length (x : List Byte) : validateText x ≠ .error .length :=
  fun h => err_ne_length_of_validateText h rfl

theorem validateText_ne_badCmd (x : List Byte) : validateText x ≠ .error .badCmd :=
  fun h => absurd (cause_of_validateText h) (by decide)

/-! ## When each cause is recorded (rules R165, R185) -/

theorem exec_enc_records (s : State) :
    ∃ t, exec .enc s = .next t ∧ ∀ c : Cause, t.status.err = c.err ↔ c = .length ∧ s.bcap < s.blen.toNat := by
  rcases exec_enc_cases s with ⟨hlong, h⟩ | ⟨hfits, h⟩
  · exact ⟨_, h, fun c => Cause.length_eq_err_iff.trans (and_iff_left hlong).symm⟩
  · exact ⟨_, h, fun c => iff_of_false c.err_ne_none.symm fun hc => absurd hc.2 (Nat.not_lt.2 hfits)⟩

theorem exec_dec_records (s : State) :
    ∃ t, exec .dec s = .next t ∧ ∀ c : Cause, t.status.err = c.err ↔
      (c = .length ∧ s.tcap < s.tlen.toNat) ∨
      (s.tlen.toNat ≤ s.tcap ∧ validateText s.textOperand = .error c) := by
  rcases exec_dec_cases s with ⟨hlong, h⟩ | ⟨hfits, d, hv, h⟩ | ⟨hfits, vs, hv, h⟩ <;> refine ⟨_, h, fun c => ?_⟩
  · simp [Cause.length_eq_err_iff, hlong, Nat.not_le.2 hlong]
  · simp [Cause.err_eq_err_iff, hfits, Nat.not_lt.2 hfits, hv]
  · exact iff_of_false c.err_ne_none.symm (by simp [Nat.not_lt.2 hfits, hv])

/-- Exactly when a completion records a cause: the word is looked at first, then the length, then the text. -/
theorem State.complete_records (s : State) :
    ∃ t, s.complete = .next t ∧ ∀ c : Cause, t.status.err = c.err ↔
      (c = .badCmd ∧ ∃ why, decode s.cmd = .reserved why) ∨
      (c = .length ∧ decode s.cmd = .command .enc ∧ s.bcap < s.blen.toNat) ∨
      (c = .length ∧ decode s.cmd = .command .dec ∧ s.tcap < s.tlen.toNat) ∨
      (decode s.cmd = .command .dec ∧ s.tlen.toNat ≤ s.tcap ∧ validateText s.textOperand = .error c) := by
  cases hd : decode s.cmd with
  | reserved why =>
    exact ⟨_, State.complete_of_reserved hd, fun c => by simp [Cause.badCmd_eq_err_iff]⟩
  | command i =>
    rw [State.complete_of_command hd]
    cases i with
    | enc => simpa using exec_enc_records s
    | dec => simpa using exec_dec_records s

/-! ## The text's symbols, by buffer location (rule R131) -/

theorem State.exists_mem_dataSymbols_textOperand (p : Byte → Prop) :
    (∃ c ∈ dataSymbols s.textOperand, p c) ↔
      ∃ i, i < s.tlen.toNat - trailingPads s.textOperand ∧ p (s.tbufAt i) := by
  rw [exists_mem_dataSymbols, State.length_textOperand]
  refine exists_congr fun i => ?_
  constructor
  · rintro ⟨c, hi, hget, hp⟩
    rw [State.getElem?_textOperand s (hi.trans_le (Nat.sub_le _ _))] at hget
    cases hget
    exact ⟨hi, hp⟩
  · rintro ⟨hi, hp⟩
    exact ⟨_, hi, State.getElem?_textOperand s (hi.trans_le (Nat.sub_le _ _)), hp⟩

theorem State.padSymbol_mem_dataSymbols_textOperand :
    padSymbol ∈ dataSymbols s.textOperand ↔
      ∃ i, i < s.tlen.toNat - trailingPads s.textOperand ∧ s.tbufAt i = padSymbol := by
  rw [← State.exists_mem_dataSymbols_textOperand (· = padSymbol), exists_eq_right]

theorem State.padSymbol_notMem_dataSymbols_textOperand :
    padSymbol ∉ dataSymbols s.textOperand ↔
      ∀ i, i < s.tlen.toNat - trailingPads s.textOperand → s.tbufAt i ≠ padSymbol := by
  rw [State.padSymbol_mem_dataSymbols_textOperand, not_exists]
  exact forall_congr' fun _ => not_and

/-! ## The statements -/

/-- Settles O31: each code is its cause's, and a text's cause is the first check that fails. -/
theorem faultPriority : Obligations.FaultPriority := by
  unfold Obligations.FaultPriority
  intro s
  obtain ⟨t, ht, hrecords⟩ := s.complete_records
  refine ⟨t, ht, (hrecords .badCmd).trans ?_, (hrecords .length).trans ?_, (hrecords .padCount).trans ?_,
    (hrecords .padPos).trans ?_, (hrecords .symbol).trans ?_⟩
  · simp [validateText_ne_badCmd]
  · simp [validateText_ne_length]
  · simp [validateText_eq_padCount_iff, allowedPads]
  · simp [validateText_eq_padPos_iff, State.padSymbol_mem_dataSymbols_textOperand, allowedPads]
  · rw [validateText_eq_symbol_iff, State.padSymbol_notMem_dataSymbols_textOperand,
      State.exists_mem_dataSymbols_textOperand fun c => symIndex c = .none]
    simp [allowedPads]

/-- Settles O30: a completion that records a cause is the state it found with the finished flags, and an outcome
other than none is a cause's. -/
theorem faultChangesOnlyStatus : Obligations.FaultChangesOnlyStatus := by
  unfold Obligations.FaultChangesOnlyStatus
  refine ⟨fun s => ?_, rfl⟩
  obtain ⟨t, ht, hbusy, hdone, -, -, -, hframe⟩ := s.complete_spec
  refine ⟨t, ht, fun he => ?_⟩
  obtain ⟨c, hc⟩ := Err.exists_cause he
  have hstatus : t.status = { busy := false, done := true, err := c.err } := by rw [← hbusy, ← hdone, hc]
  exact ⟨c, hstatus ▸ hframe he⟩

/-- Settles O22: `Length` and success are not decode errors, and every cause the checks give is one. -/
theorem decodeErrorIffMalformed : Obligations.DecodeErrorIffMalformed := by
  unfold Obligations.DecodeErrorIffMalformed
  intro s
  rcases exec_dec_cases s with ⟨hlong, h⟩ | ⟨hfits, c, hv, h⟩ | ⟨-, vs, hv, h⟩
  · exact ⟨_, h, iff_of_false nofun fun hrej => absurd hrej.1 (Nat.not_le.2 hlong)⟩
  · have hfail := b32Decode_of_error hv
    exact ⟨_, h, iff_of_true (isDecodeError_of_validateText hv) ⟨hfits, fun o ho => nomatch hfail.symm.trans ho⟩⟩
  · exact ⟨_, h, iff_of_false nofun fun hrej => hrej.2 _ (b32Decode_of_ok hv)⟩

end Sys2Proof.Machine
end

section
/-!
PROOFS of the family of `70_reset_and_hazards.md`: the reset event as a step (O42), and the command it abandons (O43).
What the event leaves in each register is said in the state's own lemmas; what it leaves in a buffer location, and the
step it is, are said here once.
-/

namespace Sys2Proof.Machine

variable {s : State}

/-! ## The reset event (rules R210, R212) -/

@[simp] theorem State.resetEvent_bbufAt (s : State) (i : Nat) :
    s.resetEvent.bbufAt i = Config.drawn s.resetEvent.draw (0x10000 + i) := rfl

@[simp] theorem State.resetEvent_tbufAt (s : State) (i : Nat) :
    s.resetEvent.tbufAt i = Config.drawn s.resetEvent.draw (0x20000 + i) := rfl

theorem State.resetEvent_draw_ne (s : State) : s.resetEvent.draw ≠ s.draw :=
  Nat.succ_ne_self s.draw

theorem State.resetEvent_status_toWord (s : State) : s.resetEvent.status.toWord = 0#32 :=
  State.resetWith_status_toWord s.cap

/-- A reset is a step whatever the block does, busy or idle: its flags are not looked at (rule R210). -/
theorem step_of_reset {rest : List Move} (h : s.schedule = .reset :: rest) :
    step s = .next (State.resetEvent { s with schedule := rest }) :=
  step_of_move h

/-- The engine's turn of an idle block passes (rules R161, R163, log 3). -/
theorem step_of_idle_turn {rest : List Move} (hidle : s.status.busy = false) (h : s.schedule = .engine :: rest) :
    step s = .next { s with schedule := rest } :=
  (step_of_engine_turn (.inl h)).trans (State.engineTurn_idle hidle)

/-! ## The statements -/

/-- Settles O42: the step is the reset event, whose registers, draw and buffer locations are known. -/
theorem resetEvent : Obligations.ResetEvent := by
  unfold Obligations.ResetEvent
  intro s rest hs
  exact ⟨_, step_of_reset hs, rfl, rfl, rfl, rfl, rfl, rfl, rfl, State.resetEvent_draw_ne _,
    State.resetEvent_bbufAt _, State.resetEvent_tbufAt _, rfl, rfl⟩

/-- Settles O43: the reset leaves the block idle with the engine's turn next, and an idle turn passes (log 3). -/
theorem resetAbandonsCommand : Obligations.ResetAbandonsCommand := by
  unfold Obligations.ResetAbandonsCommand
  intro s rest _ hs
  exact ⟨_, step_of_reset hs, State.resetEvent_status_toWord _, step_of_idle_turn rfl rfl⟩

end Sys2Proof.Machine
end
